-- ==== Sys2Proof/Word.lean ====
section
/-! DEFINITION. The word types of the block (00_scope.md R6, R7): every value is an unsigned bit vector,
bit 0 the least significant. -/

namespace Sys2Proof

/-- A byte: `hi`, `lo`, a ROM entry half, a ROM index or an input byte (R6 BYTE_WIDTH, ROM_INDEX_WIDTH). -/
abbrev Byte := BitVec 8

/-- The result `R`, the state view `S` and a ROM word `T[i]` (R6 RESULT_WIDTH). -/
abbrev Word16 := BitVec 16

/-- The port `cmd_op`, bits 9:8 of a command word (R29, R60). -/
abbrev CmdOp := BitVec 2

/-- A command word `cmd_op : cmd_byte` (R6 CMD_WIDTH, R60). -/
abbrev CmdWord := BitVec 10

/-- `zext_16(b)`, the only widening the spec uses (R7). -/
def zext16 (b : Byte) : Word16 := b.zeroExtend 16

end Sys2Proof
end

