-- ==== Sys2Proof/Syntax.lean ====
section
/-! DEFINITION. The commands of the block: one constructor per row of spec/opcode_table.json (30_encoding.md R62, R67). -/

namespace Sys2Proof

/-- A decoded command. IDLE and INIT ignore their byte field (R64), so the constructors carry none; this is the
value set of `decode` in R67. -/
inductive Instr where
  /-- IDLE, op 0b00 (R81). -/
  | idle
  /-- INIT, op 0b01 (R82). -/
  | init
  /-- UPDATE b, op 0b10 (R83). -/
  | update (b : Byte)
  /-- The reserved op 0b11, with the byte field it came with (R67, R84). -/
  | reserved (byte : Byte)
deriving DecidableEq, Repr

/-- The row of spec/opcode_table.json a command belongs to, by its mnemonic. -/
def Instr.mnemonic : Instr → String
  | .idle => "IDLE"
  | .init => "INIT"
  | .update _ => "UPDATE"
  | .reserved _ => "(reserved)"

end Sys2Proof
end

