-- ==== Sys2Proof/Decode.lean ====
section
/-! DEFINITION. The command decoder and encoder (30_encoding.md R60 to R68). Decoding is total on 10-bit words (R67); a
number that is no 10-bit word is rejected by name. -/

namespace Sys2Proof

/-- `cmd_op`, bits 9:8 of a command word (R60). -/
def opField (w : CmdWord) : CmdOp := w.extractLsb' 8 2

/-- `cmd_byte`, bits 7:0 of a command word (R60). -/
def byteField (w : CmdWord) : Byte := w.extractLsb' 0 8

/-- `word = (op << 8) | byte` (R60). -/
def joinFields (op : CmdOp) (byte : Byte) : CmdWord := op ++ byte

/-- The decoder of R67, by the op values of R62. The last arm is reached by op 0b11 alone. -/
def decode (w : CmdWord) : Instr :=
  if opField w = 0b00#2 then .idle
  else if opField w = 0b01#2 then .init
  else if opField w = 0b10#2 then .update (byteField w)
  else .reserved (byteField w)

/-- The op value of a command (R62). -/
def Instr.op : Instr → CmdOp
  | .idle => 0b00#2
  | .init => 0b01#2
  | .update _ => 0b10#2
  | .reserved _ => 0b11#2

/-- The byte field the assembler emits: the operand, or 0x00 where the byte is ignored (R64). -/
def Instr.canonicalByte : Instr → Byte
  | .idle => 0x00#8
  | .init => 0x00#8
  | .update b => b
  | .reserved b => b

/-- The canonical word of a command (R64, R68). -/
def encode (i : Instr) : CmdWord := joinFields i.op i.canonicalByte

/-- Why a number is not decoded. -/
inductive DecodeReject where
  /-- The number has a bit set above bit 9: "Every command is exactly 10 bits" (R61). That such a number is rejected, and
  not read by its low ten bits, is the model's choice (log entry 9). -/
  | notTenBits
deriving DecidableEq, Repr

/-- Decode a number, bit 0 the least significant bit of the command word (R7). DESIGN CHOICE: a number that is no 10-bit
word is rejected by name (log entry 9). -/
def decodeNumber (n : Nat) : Except DecodeReject Instr :=
  if n < 2 ^ 10 then .ok (decode (BitVec.ofNat 10 n)) else .error .notTenBits

/-- The host's question about one opcode-table word: the bits of `w` below `nbits`, read as one number (log entry 9). -/
def decodeTableWord (nbits w : Nat) : Option Instr :=
  match decodeNumber (w % 2 ^ nbits) with
  | .ok i => some i
  | .error _ => none

/-- A row of spec/opcode_table.json: a word belongs to the row when its masked bits equal `pattern`. -/
structure OpcodeRow where
  mnemonic : String
  pattern : CmdWord
  mask : CmdWord
deriving DecidableEq, Repr

/-- The four rows of spec/opcode_table.json. -/
def opcodeRows : List OpcodeRow :=
  [⟨"IDLE", 0x000#10, 0x300#10⟩, ⟨"INIT", 0x100#10, 0x300#10⟩,
   ⟨"UPDATE", 0x200#10, 0x300#10⟩, ⟨"(reserved)", 0x300#10, 0x300#10⟩]

/-- Whether a word belongs to a row. -/
def OpcodeRow.matchesWord (r : OpcodeRow) (w : CmdWord) : Bool := w &&& r.mask == r.pattern

end Sys2Proof
end

