-- ==== Sys2Proof/Machine/State.lean ====
section
/-! DEFINITION. The state of the block (10_state.md), plain data, with the reasons a step or a read can stop.
The crc_lookup_table_rom is constant (R30, R41) and stands in Machine/Rom.lean, not in State (log entry 7). The port
`crc_out` is a view of the register (R21, R137): `Machine.State.crcOut`. -/

namespace Sys2Proof.Machine

/-- The crc_state_register: two 8-bit halves that are always written together (R20, R22). -/
structure CrcPair where
  hi : Byte
  lo : Byte
deriving DecidableEq, Repr

/-- What the host drives on the input ports at one rising edge of `clk` (R9, R29). -/
inductive Drive where
  /-- Defined levels on `rst`, `cmd_op` and `cmd_byte`. -/
  | levels (rst : Bool) (op : CmdOp) (byte : Byte)
  /-- At least one input bit is neither 0 nor 1: the host breaks R115, and the model refuses (log entry 6). -/
  | undefinedLevels
deriving DecidableEq, Repr

/-- The machine's state. -/
structure State where
  /-- crc_state_register (R20). `none` is the spec's own unvalued state ⊥ (R10, R33, R80), in which the register is at
  power-up and never after an `rst` edge (R32); log entry 4. -/
  crc : Option CrcPair
  /-- The sticky refused mark of R33 (log entry 5). -/
  refused : Bool
  /-- The port levels the host drives at the coming edges, the next edge first (R26, R29; log entry 1). -/
  inputs : List Drive
deriving DecidableEq, Repr

/-- Why a read stops. The block itself raises no exception (R100); no step answers a fault. -/
inductive Fault where
  /-- Raised by `Machine.State.readR` on an unvalued register: "Reading an unvalued state as a result is a fault"
  (R10, R86). Safe: the spec makes no claim of the value. -/
  | unvaluedRead
deriving DecidableEq, Repr

/-- Why the model gives no meaning. A refusal is a model outcome, not a hardware event (R8, R102). -/
inductive Refusal where
  /-- Raised by a dispatch arm without a meaning; there is none in this model. Safe. -/
  | notModelled (mnemonic : String)
  /-- Raised by `Machine.execReserved`: op 0b11 has no meaning (R65, R84). Safe. -/
  | reservedOp
  /-- Raised by `Machine.step` and `Machine.State.readR` in a state whose sticky mark is set: no claim is made
  after a refusal (R65). Safe. -/
  | refusedMark
  /-- Raised by `Machine.clockEdge` when an input bit has no defined level (R115). Safe. -/
  | undefinedInput
deriving DecidableEq, Repr

/-- The state just after an `rst` edge (R32, R130): the register at (0xFF, 0xFF). The mark is clear and no edge is
scheduled (log entry 3). -/
def State.reset : State := { crc := some ⟨0xFF#8, 0xFF#8⟩, refused := false, inputs := [] }

/-- The state at power-up, before any `rst` or INIT edge: the register has no value (R32, R131). -/
def State.powerUp : State := { crc := none, refused := false, inputs := [] }

end Sys2Proof.Machine
end

