-- ==== Sys2Proof/Machine/Operands.lean ====
section
/-! DEFINITION. The operand forms of the block (30_encoding.md R60, R63): a command comes in parallel on two ports, and
UPDATE's byte, used as it stands, is the only operand. There is no register, immediate or memory operand (R25, R63). -/

namespace Sys2Proof.Machine

/-- The command word on the ports at an edge with `rst = 0` (R60). -/
def portWord (op : CmdOp) (byte : Byte) : CmdWord := joinFields op byte

/-- The levels that present a command word with `rst = 0` (R60). -/
def Drive.ofWord (w : CmdWord) : Drive := .levels false (opField w) (byteField w)

/-- The levels that present a command's canonical word with `rst = 0` (R64). -/
def Drive.ofInstr (i : Instr) : Drive := Drive.ofWord (encode i)

end Sys2Proof.Machine
end

