-- ==== Sys2Proof/Machine/Ops.lean ====
section
/-! DEFINITION. The named operations over the crc_state_register, the ports and the refused mark. There is no exception
to take and none to return from: the block has no trap entry, no saved state and no vector (60_exceptions.md R100, R105). -/

namespace Sys2Proof.Machine

/-- The canonical initial register pair (R23). -/
def initPair : CrcPair := ⟨0xFF#8, 0xFF#8⟩

/-- The 16-bit view `S = hi : lo` (R21, R49). -/
def CrcPair.join (p : CrcPair) : Word16 := p.hi ++ p.lo

/-- `upd((hi, lo), b)` of R83: both halves are computed from the pair before the edge. -/
def upd (p : CrcPair) (b : Byte) : CrcPair :=
  ⟨p.lo ^^^ tableHi (p.hi ^^^ b), tableLo (p.hi ^^^ b)⟩

/-- Load (0xFF, 0xFF): the effect of an `rst` edge (R130) and of INIT (R82) on the register. -/
def State.loadInit (s : State) : State := { s with crc := some initPair }

/-- `upd(s, b)` of R83 on the whole state; the unvalued register stays unvalued (R10). -/
def State.consume (b : Byte) (s : State) : State := { s with crc := s.crc.map fun p => upd p b }

/-- The port `crc_out`, driven straight from the register (R21, R137); unvalued while the register is. -/
def State.crcOut (s : State) : Option Word16 := s.crc.map CrcPair.join

/-- The host's read of R (R86): it has no effect on the state. An unvalued register faults (R10, R131), and after a
refusal no claim is made (R65). Log entry 8. -/
def State.readR (s : State) : Host.Outcome Word16 Fault Refusal :=
  if s.refused then .refused .refusedMark
  else match s.crcOut with
    | some r => .next r
    | none => .fault .unvaluedRead

/-- The state with another schedule of port levels. -/
def State.withInputs (ds : List Drive) (s : State) : State := { s with inputs := ds }

/-- The levels sampled at the next edge, and the state whose schedule has moved past them; `none` while the clock is
stopped, that is, while no edge is scheduled (R9, R110; log entry 2). -/
def State.nextDrive (s : State) : Option (Drive × State) :=
  match s.inputs with
  | [] => none
  | d :: ds => some (d, s.withInputs ds)

/-- Present a command word at the next edge with `rst = 0`, in place of the levels scheduled there (log entry 9). -/
def State.presentWord (w : CmdWord) (s : State) : State :=
  s.withInputs (Drive.ofWord w :: s.inputs.tail)

/-- Set the sticky refused mark and move past the refused edge: the block "must keep accepting commands at later
edges" (R65). "The model gives no next state of the register" (R84): it is left without a value (log entry 5). -/
def State.markRefused (s : State) : State := { crc := none, refused := true, inputs := s.inputs.tail }

end Sys2Proof.Machine
end

