-- ==== Sys2Proof/Machine/EngineCommands.lean ====
section
/-! DEFINITION. The meanings of the engine commands (41_engine_commands.md R81 to R84), one per row of the opcode table. -/

namespace Sys2Proof.Machine

/-- IDLE: `(hi, lo) <- (hi, lo)`; an unvalued register stays unvalued (R81). -/
def execIdle (s : State) : Host.Outcome State Fault Refusal := .next s

/-- INIT: `(hi, lo) <- (0xFF, 0xFF)`, from any state (R82). -/
def execInit (s : State) : Host.Outcome State Fault Refusal := .next s.loadInit

/-- UPDATE b: consume one input byte (R83). -/
def execUpdate (b : Byte) (s : State) : Host.Outcome State Fault Refusal := .next (s.consume b)

/-- The reserved op: `refuse(ReservedOp)`, with no next state of the register (R65, R84). -/
def execReserved (_s : State) : Host.Outcome State Fault Refusal := .refused .reservedOp

end Sys2Proof.Machine
end

