-- ==== Sys2Proof/Machine/Edge.lean ====
section
/-! DEFINITION. One rising edge of `clk` with given port levels (41_engine_commands.md R80). -/

namespace Sys2Proof.Machine

/-- `next(s, rst, op, byte)` of R80. `rst` has priority over every command, a reserved one too (R104, R130); levels
that are not defined are refused (R115). -/
def clockEdge (d : Drive) (s : State) : Host.Outcome State Fault Refusal :=
  match d with
  | .undefinedLevels => .refused .undefinedInput
  | .levels true _ _ => .next s.loadInit
  | .levels false op byte => exec (decode (portWord op byte)) s

end Sys2Proof.Machine
end

