-- ==== Sys2Proof/Machine/Step.lean ====
section
/-! DEFINITION. One step of the machine: the next rising edge of `clk` (00_scope.md R9, 41_engine_commands.md R80). -/

namespace Sys2Proof.Machine

/-- One step. A state whose sticky mark is set is refused (R33, R65; log entry 5); with no edge scheduled the clock is
stopped and the state holds (R110; log entry 2); otherwise the next edge samples the ports. -/
def step (s : State) : Host.Outcome State Fault Refusal :=
  if s.refused then .refused .refusedMark
  else match s.nextDrive with
    | none => .next s
    | some (d, s') => clockEdge d s'

/-- The state in which the next edge samples the command word `w` (its bits below `nbits`, bit 0 the least
significant) with `rst = 0` (log entries 3 and 9). -/
def State.withFetchWord (s : State) (nbits w : Nat) : State :=
  s.presentWord (BitVec.ofNat 10 (w % 2 ^ nbits))

end Sys2Proof.Machine
end

