-- ==== Sys2Proof/Config.lean ====
section
/-! DEFINITION. What is fixed for the block and its host (00_scope.md R6), and the values the spec leaves open
(93_implementation_defined.md §1). An open value is an opaque constant: nothing in Lean can evaluate it, so a
claim about it holds for every value. The CRC profile is fixed (R3), so none of it stands here as a parameter. -/

namespace Sys2Proof.Config

/-- MAX_LEN of R6: the most bytes the host gives one calculation (R113). The block does not check it (R91). -/
abbrev maxLen : Nat := 256

/-- The largest iteration count of a request (R71, R120). -/
abbrev maxIterations : Nat := 1000000000

/-- F_CLK, the clock frequency in edges per second: the OPEN parameter of R6 and R140. Only `Machine.edgeSeconds`
names it (log entry 11). -/
opaque fClk : Rat

/-- The command fields the host drives in a RESET cycle: don't-care by R69 and R130, so left free (log entry 17). -/
opaque resetCycleWord : CmdWord

/-- Host side: whether a character that is neither a space nor a printable ASCII character is whitespace for
the InputParser. R117 gives no list (log entry 13). -/
opaque otherWhitespace : Char → Bool

/-- Host side: for a normalised text that is both odd and too long, whether OddLengthError is the one
reported. R118 leaves the order of the two checks open (log entry 14). -/
opaque oddReportedFirst : List Char → Bool

/-- Host side: the `position` a HexParseError reports, for a raw text and the index of the failing group. R119
does not say what it counts (log entry 15). -/
opaque hexErrorPosition : List Char → Nat → Nat

/-- Host side: the text of the message for request number `draw` on a raw text. R120 gives none (log entry 16). -/
opaque errorMessage : Nat → List Char → List Char

/-- Host side: the measured total duration in seconds for request number `draw`, a free draw (R121, log entry 16). -/
opaque totalDuration : Nat → Rat

end Sys2Proof.Config
end

