-- ==== Sys2Proof/Machine/Text.lean ====
section
/-! DEFINITION. Characters and hex digits, shared by the assembler (30_encoding.md R69), the InputParser
(60_exceptions.md R119) and the rendering of the result (R116). A text is a list of characters. -/

namespace Sys2Proof.Machine

/-- The value of a hex digit in either case (R69, R119). -/
def hexDigit (c : Char) : Option (BitVec 4) :=
  let n := c.toNat
  if 48 ≤ n ∧ n ≤ 57 then some (BitVec.ofNat 4 (n - 48))
  else if 65 ≤ n ∧ n ≤ 70 then some (BitVec.ofNat 4 (n - 55))
  else if 97 ≤ n ∧ n ≤ 102 then some (BitVec.ofNat 4 (n - 87))
  else none

/-- The upper-case hex digit of a value: `0`-`9` or `A`-`F` (R116). -/
def hexChar (v : BitVec 4) : Char :=
  if v.toNat < 10 then Char.ofNat (48 + v.toNat) else Char.ofNat (55 + v.toNat)

/-- A byte written as two hex digits, the first the high nibble (R119). -/
def hexByte (cs : List Char) : Option Byte :=
  match cs with
  | [h, l] =>
    match hexDigit h, hexDigit l with
    | some a, some b => some (a ++ b)
    | _, _ => none
  | _ => none

/-- The two upper-case hex digits of a byte, high nibble first. -/
def hexOfByte (b : Byte) : List Char :=
  [hexChar (b.extractLsb' 4 4), hexChar (b.extractLsb' 0 4)]

/-- A lower-case ASCII letter made upper case; any other character as it stands. -/
def upperChar (c : Char) : Char :=
  if 97 ≤ c.toNat ∧ c.toNat ≤ 122 then Char.ofNat (c.toNat - 32) else c

/-- A decimal digit. -/
def decDigit (c : Char) : Option Nat :=
  if 48 ≤ c.toNat ∧ c.toNat ≤ 57 then some (c.toNat - 48) else none

/-- Decimal digits read on from a value. -/
def decDigits : Nat → List Char → Option Nat
  | v, [] => some v
  | v, c :: cs =>
    match decDigit c with
    | some d => decDigits (10 * v + d) cs
    | none => none

/-- A number written in one or more decimal digits. -/
def decNumber (cs : List Char) : Option Nat :=
  match cs with
  | [] => none
  | c :: cs => decDigits 0 (c :: cs)

/-- Every entry read by `f`, or `none` if one is not readable. -/
def readAll {α β : Type} (f : α → Option β) : List α → Option (List β)
  | [] => some []
  | a :: as =>
    match f a, readAll f as with
    | some b, some bs => some (b :: bs)
    | _, _ => none

end Sys2Proof.Machine
end

