-- ==== Sys2Proof/Machine/Assembler.lean ====
section
/-! DEFINITION. Command programs (30_encoding.md R69 to R72): lines, the pseudo-instructions CALC and BENCH, the text an
assembler reads, and the port levels of each line. -/

namespace Sys2Proof.Machine

/-- One line of a command program, one clock cycle (R69). A program is a list of lines; a line's index in it is its
cycle offset (R72). -/
inductive Line where
  | idle
  | init
  | update (b : Byte)
  /-- The RESET directive: a cycle with `rst = 1` and no encoding. -/
  | reset
deriving DecidableEq, Repr

/-- A statement of the assembler: a line or a pseudo-instruction (R69 to R71). -/
inductive Stmt where
  | line (l : Line)
  | calc (seq : List Byte)
  | bench (n : Nat) (seq : List Byte)
deriving DecidableEq, Repr

/-- Why the assembler refuses a line of text. DESIGN CHOICE: the spec names no assembler error (log entry 23). -/
inductive AsmError where
  | unknownStatement
  | badOperands
  /-- CALC with more than 256 bytes (R70), and BENCH with more, by the model's choice (log entry 22). -/
  | tooManyBytes
  /-- BENCH with N outside the range R71 defines it for: that it is refused is the model's choice (log entry 22). -/
  | iterationsOutOfRange
deriving DecidableEq, Repr

/-- The port levels of a line (R64, R69); a RESET line's command fields are don't-care (log entry 17). -/
def Line.drive : Line → Drive
  | .idle => Drive.ofInstr .idle
  | .init => Drive.ofInstr .init
  | .update b => Drive.ofInstr (.update b)
  | .reset => .levels true (opField Config.resetCycleWord) (byteField Config.resetCycleWord)

/-- The expansion of `CALC seq`: INIT, then one UPDATE a byte in sequence order (R70, R112). -/
def calcLines (seq : List Byte) : List Line := .init :: seq.map Line.update

/-- The expansion of `BENCH N, seq`: N copies of `CALC seq` (R71). -/
def benchLines : Nat → List Byte → List Line
  | 0, _ => []
  | n + 1, seq => calcLines seq ++ benchLines n seq

/-- What the assembler makes of a statement (R69 to R71). CALC above 256 operands is refused by R70. DESIGN CHOICE: BENCH
with N outside 1..1_000_000_000 is refused, BENCH with more than 256 bytes too, and the error of N comes first;
R71 defines BENCH inside its range only (log entry 22). -/
def Stmt.expand : Stmt → Except AsmError (List Line)
  | .line l => .ok [l]
  | .calc seq => if seq.length ≤ Config.maxLen then .ok (calcLines seq) else .error .tooManyBytes
  | .bench n seq =>
    if n < 1 ∨ Config.maxIterations < n then .error .iterationsOutOfRange
    else if seq.length ≤ Config.maxLen then .ok (benchLines n seq) else .error .tooManyBytes

/-- A blank inside a line of text (log entry 12). -/
def isBlank (c : Char) : Bool := c.toNat == 32 || c.toNat == 9

/-- A text without the blanks at its two ends. -/
def trimBlanks (cs : List Char) : List Char :=
  ((cs.dropWhile isBlank).reverse.dropWhile isBlank).reverse

/-- A line's text without its comment, which runs from the first `;` (R69). -/
def dropComment (cs : List Char) : List Char := cs.takeWhile fun c => c.toNat != 59

/-- A line's text without its label: labels are comments only, since the block has no control transfer (R69). -/
def dropLabel (cs : List Char) : List Char :=
  match cs.dropWhile fun c => c.toNat != 58 with
  | [] => cs
  | _ :: rest => rest

/-- The operands of a statement, separated by commas; none in an empty text. -/
def splitCommas : List Char → List (List Char)
  | [] => [[]]
  | c :: cs =>
    if c.toNat == 44 then [] :: splitCommas cs
    else match splitCommas cs with
      | [] => [[c]]
      | w :: ws => (c :: w) :: ws

/-- The operand texts after a mnemonic. -/
def operandTexts (cs : List Char) : List (List Char) :=
  match trimBlanks cs with
  | [] => []
  | c :: rest => (splitCommas (c :: rest)).map trimBlanks

/-- `byte := "0x" hex hex | hex hex` (R69). -/
def asmByte (cs : List Char) : Option Byte :=
  match cs with
  | [z, x, h, l] => if z = '0' ∧ x = 'x' then hexByte [h, l] else none
  | [h, l] => hexByte [h, l]
  | _ => none

/-- A statement from its upper-case mnemonic and its operand texts (R69 to R71). DESIGN CHOICE: a malformed operand, or a
wrong number of them, is reported here, before `Stmt.expand` checks the bounds (log entry 23). -/
def stmtOf (mnemonic : List Char) (ops : List (List Char)) : Except AsmError Stmt :=
  if mnemonic = ['I', 'D', 'L', 'E'] then
    if ops = [] then .ok (.line .idle) else .error .badOperands
  else if mnemonic = ['I', 'N', 'I', 'T'] then
    if ops = [] then .ok (.line .init) else .error .badOperands
  else if mnemonic = ['R', 'E', 'S', 'E', 'T'] then
    if ops = [] then .ok (.line .reset) else .error .badOperands
  else if mnemonic = ['U', 'P', 'D', 'A', 'T', 'E'] then
    match readAll asmByte ops with
    | some [b] => .ok (.line (.update b))
    | _ => .error .badOperands
  else if mnemonic = ['C', 'A', 'L', 'C'] then
    match readAll asmByte ops with
    | some seq => .ok (.calc seq)
    | none => .error .badOperands
  else if mnemonic = ['B', 'E', 'N', 'C', 'H'] then
    match ops with
    | [] => .error .badOperands
    | n :: bs =>
      match decNumber n, readAll asmByte bs with
      | some n, some seq => .ok (.bench n seq)
      | _, _ => .error .badOperands
  else .error .unknownStatement

/-- One line of text read as a statement: `[label ":"] stmt [";" comment]`, mnemonics in either case (R69). DESIGN CHOICE: the
mnemonic ends at the first blank, so a blank must stand between it and its first operand; the grammar writes no separator
there (log entry 12). -/
def readStmt (text : List Char) : Except AsmError Stmt :=
  let body := trimBlanks (dropLabel (dropComment text))
  stmtOf ((body.takeWhile fun c => !isBlank c).map upperChar)
    (operandTexts (body.dropWhile fun c => !isBlank c))

/-- One line of text assembled: read first, then expanded, so the errors of `readStmt` come before those of
`Stmt.expand` (DESIGN CHOICE, log entry 23). -/
def assembleLine (text : List Char) : Except AsmError (List Line) :=
  match readStmt text with
  | .ok st => st.expand
  | .error e => .error e

/-- A program text assembled, its lines of text top to bottom (R69). DESIGN CHOICE: a fault in one line refuses the whole
program, and the error reported is that of the first faulty line alone (log entry 23). -/
def assemble : List (List Char) → Except AsmError (List Line)
  | [] => .ok []
  | t :: ts =>
    match assembleLine t with
    | .error e => .error e
    | .ok ls =>
      match assemble ts with
      | .error e => .error e
      | .ok rest => .ok (ls ++ rest)

end Sys2Proof.Machine
end

