-- ==== Sys2Proof/Machine/Run.lean ====
section
/-! DEFINITION. Runs of many edges: the host sequences the commands (10_state.md R26), one per edge, in order
(20_memory.md R55). -/

namespace Sys2Proof.Machine

/-- `n` steps, stopping at the first fault or refusal. -/
def runEdges : Nat → State → Host.Outcome State Fault Refusal
  | 0, s => .next s
  | n + 1, s =>
    match step s with
    | .next t => runEdges n t
    | .fault r => .fault r
    | .refused r => .refused r

/-- Drive the given levels at successive edges, one list entry an edge, from the register and mark of `s`. -/
def feed (ds : List Drive) (s : State) : Host.Outcome State Fault Refusal :=
  runEdges ds.length (s.withInputs ds)

/-- One edge for an observer that goes on past a refusal: the sticky mark is then set, and it is never cleared (R33,
R65; log entry 5). -/
def carryOn (s : State) : State :=
  match step s with
  | .next t => t
  | .fault _ => s
  | .refused _ => s.markRefused

/-- `n` edges of `carryOn`. -/
def carryOnFor : Nat → State → State
  | 0, s => s
  | n + 1, s => carryOnFor n (carryOn s)

/-- What the host reads on `crc_out` just after each of the next `n` edges (R139). -/
def readings : Nat → State → List (Host.Outcome Word16 Fault Refusal)
  | 0, _ => []
  | n + 1, s => (carryOn s).readR :: readings n (carryOn s)

/-- The time of a number of edges, in seconds: edges / F_CLK (R140). -/
def edgeSeconds (edges : Nat) : Rat := edges / Config.fClk

end Sys2Proof.Machine
end

