-- ==== Sys2Proof/Machine/HostSide.lean ====
section
/-! DEFINITION. The host software around the block (60_exceptions.md R116 to R122): the InputParser, the rendering of R,
the BenchmarkHarness and the request it answers. These rules bind the host, not the block. -/

namespace Sys2Proof.Machine

/-- The InputParser's errors (R101, R118, R119). -/
inductive ParseError where
  | oddLength
  | tooLong
  | hexParse (group : List Char) (position : Nat)
deriving DecidableEq, Repr

/-- `error_kind` of a failure response (R120). -/
inductive ErrorKind where
  | oddLength
  | tooLong
  | hexParse
deriving DecidableEq, Repr

/-- The kind of a parsing error (R120). -/
def ParseError.kind : ParseError → ErrorKind
  | .oddLength => .oddLength
  | .tooLong => .tooLong
  | .hexParse _ _ => .hexParse

/-- Whitespace for the InputParser: a space is, another printable ASCII character is not, the rest is open (R117; log
entry 13). -/
def isWhitespace (c : Char) : Bool :=
  if c.toNat = 32 then true
  else if 33 ≤ c.toNat ∧ c.toNat ≤ 126 then false
  else Config.otherWhitespace c

/-- Step 1: "remove whitespace characters" (R117). -/
def removeWhitespace (text : List Char) : List Char := text.filter fun c => !isWhitespace c

/-- Step 2: the two length checks (R118). When both fail, which error is reported is open (log entry 14). -/
def lengthError (norm : List Char) : Option ParseError :=
  if norm.length % 2 = 1 then
    if norm.length ≤ 2 * Config.maxLen then some .oddLength
    else if Config.oddReportedFirst norm then some .oddLength else some .tooLong
  else if 2 * Config.maxLen < norm.length then some .tooLong
  else none

/-- "partition the normalized string into consecutive 2-character groups" (R119). -/
def groups : List Char → List (List Char)
  | a :: b :: cs => [a, b] :: groups cs
  | [a] => [[a]]
  | [] => []

/-- Step 3: the groups parsed in order; the first that fails is the one reported (R119; log entry 15). -/
def decodeGroups (text : List Char) : Nat → List (List Char) → Except ParseError (List Byte)
  | _, [] => .ok []
  | k, g :: gs =>
    match hexByte g with
    | none => .error (.hexParse g (Config.hexErrorPosition text k))
    | some b =>
      match decodeGroups text (k + 1) gs with
      | .ok bs => .ok (b :: bs)
      | .error e => .error e

/-- The InputParser (R117 to R119). -/
def parse (text : List Char) : Except ParseError (List Byte) :=
  match lengthError (removeWhitespace text) with
  | some e => .error e
  | none => decodeGroups text 0 (groups (removeWhitespace text))

/-- R rendered as "4 uppercase hex digits, zero-padded", R[15:12] first (R116). -/
def render (r : Word16) : List Char :=
  hexOfByte (r.extractLsb' 8 8) ++ hexOfByte (r.extractLsb' 0 8)

/-- The BenchmarkHarness drives the block with `BENCH N, seq` and reads R after the last edge (R114, R121). -/
def harness (n : Nat) (seq : List Byte) (s : State) : Host.Outcome Word16 Fault Refusal :=
  match feed ((benchLines n seq).map Line.drive) s with
  | .next t => t.readR
  | .fault r => .fault r
  | .refused r => .refused r

/-- The lines a harness issues that polls a cancellation flag before each iteration and stops at the first one
that is set: cancellation happens only at a calculation boundary, before an INIT (R122). DESIGN CHOICE: R122 polls "between
iterations"; here the flag is polled before the first iteration too, so a flag set at once issues no line (log
entry 21). -/
def cancellableLines (seq : List Byte) : List Bool → List Line
  | [] => []
  | true :: _ => []
  | false :: flags => calcLines seq ++ cancellableLines seq flags

/-- The host's request (R120). -/
structure Request where
  text : List Char
  iterations : Nat
deriving DecidableEq, Repr

/-- The iteration count is within the input contract (R120, R121). -/
def Request.wf (r : Request) : Bool := 1 ≤ r.iterations && r.iterations ≤ Config.maxIterations

/-- The host's response (R120). -/
inductive Response where
  | success (checksumHex : List Char) (totalDuration averageDuration : Rat)
  | failure (kind : ErrorKind) (message : List Char)
deriving DecidableEq, Repr

/-- The host's answer to request number `draw` over a block in state `s` (R120, R121). On a parsing error no command is
issued (R101). The average is the exact quotient (90_conflicts.md C6). `none` where the spec states no response: a request
outside its contract, or a block that has refused (log entry 18). -/
def serve (draw : Nat) (r : Request) (s : State) : Option Response :=
  if r.wf then
    match parse r.text with
    | .error e => some (.failure e.kind (Config.errorMessage draw r.text))
    | .ok seq =>
      match harness r.iterations seq s with
      | .next c => some (.success (render c) (Config.totalDuration draw)
          (Config.totalDuration draw / r.iterations))
      | .fault _ => none
      | .refused _ => none
  else none

end Sys2Proof.Machine
end

