-- ==== Sys2Proof/Machine/Crc.lean ====
section
/-! DEFINITION. The results of whole calculations as functions of the byte sequence alone (41_engine_commands.md R87 to
R91), and the bit-serial CRC they are compared with (R89). -/

namespace Sys2Proof.Machine

/-- The register after consuming a byte sequence from a pair: the fold of `upd`, in sequence order (R50, R87). -/
def foldUpd (p : CrcPair) (seq : List Byte) : CrcPair := seq.foldl upd p

/-- `crc(seq)`, the CalculationResult, for a sequence of any length (R87, R91). -/
def crc (seq : List Byte) : Word16 := (foldUpd initPair seq).join

/-- One byte of the bit-serial CRC: XOR the byte in, then eight bit steps (R89). -/
def bitSerialByte (c : Word16) (b : Byte) : Word16 := bitSteps 8 (c ^^^ zext16 b)

/-- `C(seq)`, the bit-serial reflected CRC of R89. -/
def bitSerial (seq : List Byte) : Word16 := seq.foldl bitSerialByte 0xFFFF#16

/-- A 16-bit value with its two bytes exchanged (R89). -/
def swap16 (v : Word16) : Word16 := v.extractLsb' 0 8 ++ v.extractLsb' 8 8

end Sys2Proof.Machine
end

