-- ==== Sys2Proof/Safety.lean ====
section
/-! DEFINITION. What counts as a run whose results the spec vouches for: the duties of the host over the levels it drives
(60_exceptions.md R111, R113, R115), and the calculation such a run is in (R123). -/

namespace Sys2Proof.Safety

open Sys2Proof.Machine

/-- The host keeps R111 (a calculation starts with INIT or `rst`), R113 (at most 256 bytes) and R115 (no reserved op, no
undefined level) over the coming edges. The first argument is the number of bytes given to the current
calculation, `none` before the first INIT or `rst`. -/
def keepsDuties : Option Nat → List Drive → Bool
  | _, [] => true
  | _, .undefinedLevels :: _ => false
  | _, .levels true _ _ :: ds => keepsDuties (some 0) ds
  | count, .levels false op byte :: ds =>
    match decode (portWord op byte) with
    | .idle => keepsDuties count ds
    | .init => keepsDuties (some 0) ds
    | .update _ =>
      match count with
      | none => false
      | some n => n < Config.maxLen && keepsDuties (some (n + 1)) ds
    | .reserved _ => false

/-- The bytes of the calculation in progress after the given edges: those since the last INIT or `rst` (R123). The first
argument is the calculation before them, `none` where none has started. -/
def calculation : Option (List Byte) → List Drive → Option (List Byte)
  | cur, [] => cur
  | cur, .undefinedLevels :: ds => calculation cur ds
  | _, .levels true _ _ :: ds => calculation (some []) ds
  | cur, .levels false op byte :: ds =>
    match decode (portWord op byte) with
    | .idle => calculation cur ds
    | .init => calculation (some []) ds
    | .update b => calculation (cur.map fun seq => seq ++ [b]) ds
    | .reserved _ => calculation cur ds

/-- The edges without the IDLE commands among them (R138). -/
def withoutIdles : List Drive → List Drive
  | [] => []
  | .undefinedLevels :: ds => .undefinedLevels :: withoutIdles ds
  | .levels true op byte :: ds => .levels true op byte :: withoutIdles ds
  | .levels false op byte :: ds =>
    match decode (portWord op byte) with
    | .idle => withoutIdles ds
    | .init => .levels false op byte :: withoutIdles ds
    | .update _ => .levels false op byte :: withoutIdles ds
    | .reserved _ => .levels false op byte :: withoutIdles ds

/-- The register holds a value and the model has not refused: from such a state a read of R succeeds (R10, R33). -/
def Readable (s : State) : Prop := s.refused = false ∧ s.crc.isSome = true

/-- An edge at which the register may be written: `rst`, INIT or UPDATE (R22). -/
def writesRegister : Drive → Bool
  | .undefinedLevels => false
  | .levels true _ _ => true
  | .levels false op byte =>
    match decode (portWord op byte) with
    | .idle => false
    | .init => true
    | .update _ => true
    | .reserved _ => false

end Sys2Proof.Safety
end

