-- ==== Sys2Proof/WellFormed.lean ====
section
/-! DEFINITION. Which commands a host may issue (30_encoding.md R65, 60_exceptions.md R115). Every operand is in range
by its type (R63), so the reserved op is the only check. -/

namespace Sys2Proof

/-- A command the host may issue: the 768 words with a meaning (R66). "The host never issues op 0b11" (R115). -/
def Instr.wf : Instr → Bool
  | .idle => true
  | .init => true
  | .update _ => true
  | .reserved _ => false

end Sys2Proof
end

