-- ==== Sys2Proof/Certificates/Slice0/Obligations.lean ====
section
/-! DEFINITION. The statements for the provers. Each docstring names the rule of spec/ it formalises. -/

open Sys2Proof Sys2Proof.Machine Sys2Proof.Safety

/-! ## The crc_lookup_table_rom (20_memory.md) -/

/-- R43: every word of the ROM table written out in R45 is the word the bit-shift algorithm generates. -/
def Obligations.RomWordsAreGenerated : Prop := ∀ i : Byte, romWord i = genWord i

/-- R44: the generated word's low byte is in TableHi and its high byte in TableLo, so a ROM read joins them to T[i]
(R42). On "123456789" the result is 0x374B, and with the two tables exchanged it would be 0xD641. -/
def Obligations.RomSplitsGeneratedWord : Prop :=
  (∀ i : Byte, tableHi i = (genWord i).extractLsb' 0 8 ∧ tableLo i = (genWord i).extractLsb' 8 8 ∧
    memRead i = tableLo i ++ tableHi i ∧ memRead i = genWord i) ∧
  crc [0x31#8, 0x32#8, 0x33#8, 0x34#8, 0x35#8, 0x36#8, 0x37#8, 0x38#8, 0x39#8] = 0x374B#16 ∧
  ([0x31#8, 0x32#8, 0x33#8, 0x34#8, 0x35#8, 0x36#8, 0x37#8, 0x38#8, 0x39#8].foldl
    (fun (p : CrcPair) b => ⟨p.lo ^^^ tableLo (p.hi ^^^ b), tableHi (p.hi ^^^ b)⟩) ⟨0xFF#8, 0xFF#8⟩).join = 0xD641#16

/-- R47: the single entries, linearity, the eight values of TableHi, TableLo a permutation, all words different. -/
def Obligations.RomHasListedProperties : Prop :=
  (romWord 0x00#8 = 0x0000#16 ∧ tableHi 0x00#8 = 0x00#8 ∧ tableLo 0x00#8 = 0x00#8) ∧
  (romWord 0x01#8 = 0xC0C1#16 ∧ romWord 0x80#8 = 0xA001#16 ∧ romWord 0xFF#8 = 0x4040#16) ∧
  (romWord 0x02#8 = 0xC181#16 ∧ romWord 0x04#8 = 0xC301#16 ∧ romWord 0x08#8 = 0xC601#16 ∧
    romWord 0x10#8 = 0xCC01#16 ∧ romWord 0x20#8 = 0xD801#16 ∧ romWord 0x40#8 = 0xF001#16) ∧
  (∀ a b : Byte, romWord (a ^^^ b) = romWord a ^^^ romWord b) ∧
  (∀ v : Byte, (∃ i, tableHi i = v) ↔
    v ∈ [0x00#8, 0x01#8, 0x40#8, 0x41#8, 0x80#8, 0x81#8, 0xC0#8, 0xC1#8]) ∧
  (∀ v : Byte, ∃ i, tableLo i = v ∧ ∀ j, tableLo j = v → j = i) ∧
  (∀ a b : Byte, romWord a = romWord b → a = b)

/-! ## Decoding and encoding (30_encoding.md) -/

/-- R67: the decoder by the op field, for every byte field; every command word is such a pair of fields (R60). -/
def Obligations.DecodeFollowsOpField : Prop :=
  (∀ b : Byte, decode (joinFields 0b00#2 b) = .idle ∧ decode (joinFields 0b01#2 b) = .init ∧
    decode (joinFields 0b10#2 b) = .update b ∧ decode (joinFields 0b11#2 b) = .reserved b) ∧
  ∀ w : CmdWord, (joinFields (opField w) (byteField w) = w) ∧ w.toNat = (opField w).toNat * 256 + (byteField w).toNat

/-- Decode and encode agree. Decoding the canonical word of any command gives the command back, as a word and as the
number the host gives, at every number of bits that holds it; encoding what a word decodes to gives that word
back for UPDATE and the reserved op, and the canonical 0x000 and 0x100 for IDLE and INIT (R64, R67, R68). -/
def Obligations.DecodeEncodeAgree : Prop :=
  (∀ i : Instr, decode (encode i) = i) ∧
  (∀ (i : Instr) (n : Nat), 10 ≤ n → decodeTableWord n (encode i).toNat = some i) ∧
  (∀ (w : CmdWord) (b : Byte), decode w = .update b ∨ decode w = .reserved b → encode (decode w) = w) ∧
  (∀ w : CmdWord, decode w = .idle → encode (decode w) = 0x000#10) ∧
  (∀ w : CmdWord, decode w = .init → encode (decode w) = 0x100#10)

/-- Each word belongs to exactly one row of spec/opcode_table.json, the row of the command it decodes to. -/
def Obligations.OpcodeTableAgreesWithDecoder : Prop :=
  ∀ w : CmdWord, ((opcodeRows.filter fun r => r.matchesWord w).map fun r => r.mnemonic) = [(decode w).mnemonic]

/-- Words written out from R60, R64 and R68 decode to the commands they stand for. -/
def Obligations.WrittenWordsDecode : Prop :=
  decode 0b0000000000#10 = .idle ∧ decode 0b0011111111#10 = .idle ∧
  decode 0b0100000000#10 = .init ∧ decode 0b0110100101#10 = .init ∧
  decode 0b1000000001#10 = .update 0x01#8 ∧ decode 0b1011000100#10 = .update 0xC4#8 ∧
  decode 0b1011111111#10 = .update 0xFF#8 ∧ decode 0b1110100101#10 = .reserved 0xA5#8

/-- A number with a bit above bit 9 is rejected by name, and any other decodes as the word it is. R61 says that every
command is exactly 10 bits; that a wider number is rejected is the model's choice (log entry 9). -/
def Obligations.OnlyTenBitNumbersDecode : Prop :=
  (∀ n : Nat, 1024 ≤ n → decodeNumber n = .error .notTenBits) ∧
  ∀ w : CmdWord, decodeNumber w.toNat = .ok (decode w)

/-! ## The commands (41_engine_commands.md) -/

/-- R81: IDLE, from any state and with any byte field, leaves everything as it was; any number of IDLE cycles has no
effect. -/
def Obligations.IdleChangesNothing : Prop :=
  (∀ s : State, exec .idle s = .next s) ∧
  (∀ b : Byte, decode (joinFields 0b00#2 b) = .idle) ∧ encode .idle = 0x000#10 ∧
  (∀ (n : Nat) (s : State), s.refused = false →
    feed (List.replicate n (Drive.ofInstr .idle)) s = .next (s.withInputs [])) ∧
  (∀ s : State, s.refused = false → s.crc = some ⟨0x37#8, 0x4B#8⟩ →
    ∃ t, exec .idle s = .next t ∧ t.readR = .next 0x374B#16)

/-- R82: INIT completes from every state, an unvalued one too, and leaves (0xFF, 0xFF) and nothing else changed; a
second INIT changes nothing more, and an `rst` edge has the same effect on the register. -/
def Obligations.InitLoadsCanonicalPair : Prop :=
  (∀ s : State, exec .init s = .next { s with crc := some ⟨0xFF#8, 0xFF#8⟩ }) ∧
  (∀ b : Byte, decode (joinFields 0b01#2 b) = .init) ∧ encode .init = 0x100#10 ∧
  (∀ s t : State, exec .init s = .next t → exec .init t = .next t ∧ t.crcOut = some 0xFFFF#16) ∧
  (∀ (s : State) (op : CmdOp) (byte : Byte), clockEdge (.levels true op byte) s = exec .init s)

/-- R83: UPDATE completes from every state. From (hi, lo) it leaves (lo ^ TableHi[hi ^ b], TableLo[hi ^ b]), from the
unvalued state the unvalued state, and nothing else changes; then R83's corner cases and its example. -/
def Obligations.UpdateConsumesOneByte : Prop :=
  (∀ (s : State) (hi lo b : Byte), s.crc = some ⟨hi, lo⟩ →
    exec (.update b) s = .next { s with crc := some ⟨lo ^^^ tableHi (hi ^^^ b), tableLo (hi ^^^ b)⟩ }) ∧
  (∀ (s : State) (b : Byte), s.crc = none → exec (.update b) s = .next s) ∧
  (∀ b : Byte, decode (joinFields 0b10#2 b) = .update b ∧ (encode (.update b)).toNat = 0x200 + b.toNat) ∧
  (∀ (s : State) (hi lo : Byte), s.crc = some ⟨hi, lo⟩ →
    exec (.update hi) s = .next { s with crc := some ⟨lo, 0x00#8⟩ } ∧
    exec (.update (hi ^^^ 0xFF#8)) s = .next { s with crc := some ⟨lo ^^^ 0x40#8, 0x40#8⟩ }) ∧
  (∀ s : State, s.crc = some ⟨0x00#8, 0x00#8⟩ → exec (.update 0x00#8) s = .next s ∧
    exec (.update 0x01#8) s = .next { s with crc := some ⟨0xC1#8, 0xC0#8⟩ }) ∧
  (∀ s : State, s.refused = false → s.crc = some ⟨0xFF#8, 0xFF#8⟩ →
    ∃ t, exec (.update 0x01#8) s = .next t ∧ t.readR = .next 0x7E80#16)

/-- R83, "Old `lo` is discarded": two states that differ in `lo` alone agree in `new_lo`, and their `new_hi` differ by
exactly the difference of the old `lo`. -/
def Obligations.OldLoReachesNewHiOnly : Prop :=
  ∀ (s s' : State) (hi lo lo' b : Byte), s.crc = some ⟨hi, lo⟩ → s'.crc = some ⟨hi, lo'⟩ →
    ∃ t t' p p', exec (.update b) s = .next t ∧ exec (.update b) s' = .next t' ∧
      t.crc = some p ∧ t'.crc = some p' ∧ p.lo = p'.lo ∧ p.hi ^^^ p'.hi = lo ^^^ lo'

/-- R84: a reserved command is refused from every state, with every byte field; sampled with `rst = 0` it sets the
sticky mark, and with `rst = 1` it is not refused. -/
def Obligations.ReservedIsRefused : Prop :=
  (∀ (s : State) (b : Byte), exec (.reserved b) s = .refused .reservedOp) ∧
  (∀ b : Byte, decode (joinFields 0b11#2 b) = .reserved b) ∧
  (∀ (s : State) (b : Byte) (ds : List Drive), s.refused = false → s.inputs = .levels false 0b11#2 b :: ds →
    step s = .refused .reservedOp ∧ (carryOn s).refused = true) ∧
  (∀ (s : State) (b : Byte) (ds : List Drive), s.refused = false → s.inputs = .levels true 0b11#2 b :: ds →
    ∃ t, step s = .next t ∧ t.crc = some ⟨0xFF#8, 0xFF#8⟩ ∧ t.refused = false)

/-! ## One edge (00_scope.md R9, 41_engine_commands.md R80) -/

/-- A step runs the decoded command. When an edge is scheduled with `rst = 0`, step is exec of the command the ports
hold, at the state whose schedule has moved past the edge; so is the step of a state given a command word as the host
gives it, for every command word. -/
def Obligations.StepRunsDecodedCommand : Prop :=
  (∀ (s : State) (op : CmdOp) (byte : Byte) (ds : List Drive),
    s.refused = false → s.inputs = .levels false op byte :: ds →
    step s = exec (decode (portWord op byte)) (s.withInputs ds)) ∧
  (∀ (s : State) (w : CmdWord) (n : Nat), s.refused = false → 10 ≤ n →
    step (s.withFetchWord n w.toNat) = exec (decode w) (s.withInputs s.inputs.tail))

/-- R80: the next-state function by its cases, for every state whose mark is clear and every level on the ports; the
schedule moves past the edge and nothing else changes. -/
def Obligations.NextStateByCases : Prop :=
  ∀ (s : State) (rst : Bool) (op : CmdOp) (byte : Byte) (ds : List Drive),
    s.refused = false → s.inputs = .levels rst op byte :: ds →
    (rst = true → step s = .next { crc := some ⟨0xFF#8, 0xFF#8⟩, refused := false, inputs := ds }) ∧
    (rst = false → op = 0b00#2 → step s = .next { crc := s.crc, refused := false, inputs := ds }) ∧
    (rst = false → op = 0b01#2 →
      step s = .next { crc := some ⟨0xFF#8, 0xFF#8⟩, refused := false, inputs := ds }) ∧
    (rst = false → op = 0b10#2 →
      (s.crc = none → step s = .next { crc := none, refused := false, inputs := ds }) ∧
      ∀ hi lo, s.crc = some ⟨hi, lo⟩ → step s = .next
        { crc := some ⟨lo ^^^ tableHi (hi ^^^ byte), tableLo (hi ^^^ byte)⟩, refused := false, inputs := ds }) ∧
    (rst = false → op = 0b11#2 → step s = .refused .reservedOp)

/-- R130: an `rst` edge loads (0xFF, 0xFF) whatever the command fields hold, and does not clear the refused mark. -/
def Obligations.ResetEdgeWins : Prop :=
  (∀ (s : State) (op : CmdOp) (byte : Byte) (ds : List Drive),
    s.refused = false → s.inputs = .levels true op byte :: ds →
    step s = .next { crc := some ⟨0xFF#8, 0xFF#8⟩, refused := false, inputs := ds }) ∧
  (∀ (s : State) (op : CmdOp) (byte : Byte) (ds : List Drive),
    s.refused = true → s.inputs = .levels true op byte :: ds → (carryOn s).refused = true)

/-- R22: a step that goes on either finds the clock stopped and changes nothing, or is one edge: `rst`, INIT and UPDATE
write the register whole, IDLE leaves it, and nothing but the register and the schedule changes. -/
def Obligations.OnlyThreeWriters : Prop :=
  ∀ s t : State, step s = .next t →
    (s.inputs = [] ∧ t = s) ∨
    ∃ d ds, s.inputs = d :: ds ∧ t.inputs = ds ∧ t.refused = s.refused ∧
      ((∃ op byte, d = .levels true op byte ∧ t.crc = some ⟨0xFF#8, 0xFF#8⟩) ∨
       (∃ byte, d = .levels false 0b01#2 byte ∧ t.crc = some ⟨0xFF#8, 0xFF#8⟩) ∨
       (∃ byte, d = .levels false 0b10#2 byte ∧ t.crc = s.crc.map fun p => upd p byte) ∨
       (∃ byte, d = .levels false 0b00#2 byte ∧ t.crc = s.crc))

/-- While no edge is scheduled the clock is stopped, and the state holds (R110; log entry 2 makes the empty schedule the
stopped clock, the model's choice). -/
def Obligations.StoppedClockHoldsState : Prop :=
  ∀ s : State, s.refused = false → s.inputs = [] → step s = .next s

/-- R100: no step and no command answers a fault, and every command a host may issue goes on from every state. -/
def Obligations.BlockRaisesNoException : Prop :=
  (∀ (s : State) (r : Fault), step s ≠ .fault r) ∧
  (∀ (i : Instr) (s : State) (r : Fault), exec i s ≠ .fault r) ∧
  ∀ (i : Instr) (s : State), i.wf = true → ∃ t, exec i s = .next t

/-- When the model refuses a step: exactly on a set mark, on levels that are not defined, and on a reserved op
sampled with `rst = 0` (R65, R115; the first two are the model's form of them, log entries 5 and 6). -/
def Obligations.RefusalCauses : Prop :=
  ∀ (s : State) (r : Refusal), step s = .refused r ↔
    (s.refused = true ∧ r = .refusedMark) ∨
    (s.refused = false ∧ ∃ d ds, s.inputs = d :: ds ∧
      ((d = .undefinedLevels ∧ r = .undefinedInput) ∨
       ∃ b, d = .levels false 0b11#2 b ∧ r = .reservedOp))

/-- The refused mark is sticky (R33): once set, it is set after any number of edges, whatever they carry, every step
is refused and every reading is refused (the two last are the model's form of "no claim", log entry 5). -/
def Obligations.RefusedMarkIsSticky : Prop :=
  ∀ (n : Nat) (s : State), s.refused = true →
    (carryOnFor n s).refused = true ∧ step (carryOnFor n s) = .refused .refusedMark ∧
      readings n s = List.replicate n (.refused .refusedMark)

/-! ## Reading the result -/

/-- R86: R = (hi << 8) | lo, read in any state whose mark is clear; a read of an unvalued register faults. -/
def Obligations.ReadGivesRegister : Prop :=
  (∀ (s : State) (hi lo : Byte), s.refused = false → s.crc = some ⟨hi, lo⟩ →
    s.readR = .next (hi ++ lo) ∧ s.readR = .next (zext16 hi <<< 8 ||| zext16 lo) ∧
      (hi ++ lo).toNat = hi.toNat * 256 + lo.toNat) ∧
  (∀ s : State, s.refused = false → s.crc = none → s.readR = .fault .unvaluedRead)

/-- R137: the reading does not depend on the levels on the ports, and an edge that does not write the register
leaves `crc_out` unchanged. -/
def Obligations.ReadingIsRegistered : Prop :=
  (∀ (s : State) (ds : List Drive), (s.withInputs ds).readR = s.readR ∧ (s.withInputs ds).crcOut = s.crcOut) ∧
  (∀ (s t : State) (d : Drive) (ds : List Drive), s.inputs = d :: ds → writesRegister d = false →
    step s = .next t → t.crcOut = s.crcOut ∧ t.readR = s.readR)

/-! ## Reset and power-up -/

/-- R32: the register and `crc_out` after an `rst` edge from any state, in the model's reset state, and at power-up; the
ROM has its constant contents throughout. -/
def Obligations.ResetAndPowerUpValues : Prop :=
  (∀ (op : CmdOp) (byte : Byte) (s : State), ∃ t, clockEdge (.levels true op byte) s = .next t ∧
    t.crc = some ⟨0xFF#8, 0xFF#8⟩ ∧ t.crcOut = some 0xFFFF#16) ∧
  (State.reset.crc = some ⟨0xFF#8, 0xFF#8⟩ ∧ State.reset.crcOut = some 0xFFFF#16) ∧
  (State.powerUp.crc = none ∧ State.powerUp.crcOut = none) ∧
  ∀ i : Byte, tableHi i = (genWord i).extractLsb' 0 8 ∧ tableLo i = (genWord i).extractLsb' 8 8

/-- In the reset state a read succeeds: the mark is clear (the model's choice, log entry 3) and the register holds a
value. -/
def Obligations.ResetIsReadable : Prop := Readable State.reset ∧ State.reset.readR = .next 0xFFFF#16

/-- Every step keeps the state readable: the mark stays clear, the register stays valued, and every reading of a run
that goes on is a value. -/
def Obligations.StepKeepsReadable : Prop :=
  (∀ s t : State, Readable s → step s = .next t → Readable t) ∧
  ∀ (n : Nat) (s t : State), Readable s → runEdges n s = .next t → ∃ r, t.readR = .next r

/-- R131: from an unvalued register, IDLE and UPDATE commands complete and keep it unvalued, and a read of R faults. -/
def Obligations.PowerUpStaysUnvalued : Prop :=
  ∀ (ds : List Drive) (s : State), s.refused = false → s.crc = none →
    (∀ d ∈ ds, ∃ op byte, d = .levels false op byte ∧ (op = 0b00#2 ∨ op = 0b10#2)) →
    ∃ t, feed ds s = .next t ∧ t.crc = none ∧ t.readR = .fault .unvaluedRead

/-! ## Whole calculations -/

/-- R87: after the edges of `CALC seq`, with any IDLE cycles between them, from any state whose mark is clear, `crc_out`
holds crc(seq), for a sequence of any length (R91); the empty sequence gives 0xFFFF. -/
def Obligations.CalcLeavesResult : Prop :=
  (∀ (seq : List Byte) (ds : List Drive) (s : State), s.refused = false →
    withoutIdles ds = (calcLines seq).map Line.drive →
    ∃ t, feed ds s = .next t ∧ t.crc = some (seq.foldl upd ⟨0xFF#8, 0xFF#8⟩) ∧ t.refused = false ∧
      t.readR = .next (crc seq)) ∧
  (∀ seq : List Byte, ∃ hi lo, seq.foldl upd ⟨0xFF#8, 0xFF#8⟩ = ⟨hi, lo⟩ ∧
    crc seq = zext16 hi <<< 8 ||| zext16 lo) ∧
  crc [] = 0xFFFF#16

/-- R138: IDLE cycles inserted anywhere change no outcome of a run. -/
def Obligations.IdlesNeverMatter : Prop :=
  ∀ (ds : List Drive) (s : State), s.refused = false → feed (withoutIdles ds) s = feed ds s

/-- R88: crc(seq) does not depend on the state before, and `BENCH N, seq` leaves crc(seq) for every N >= 1. -/
def Obligations.BenchLeavesSameResult : Prop :=
  ∀ (n : Nat) (seq : List Byte) (s : State), 1 ≤ n → s.refused = false → harness n seq s = .next (crc seq)

/-- R24: a run that starts with `rst` or INIT has the same outcome from any two states whose marks are clear. -/
def Obligations.NoLeakBetweenCalculations : Prop :=
  ∀ (d : Drive) (ds : List Drive) (s s' : State), s.refused = false → s'.refused = false →
    (∃ op byte, d = .levels true op byte ∨ (d = .levels false op byte ∧ op = 0b01#2)) →
    feed (d :: ds) s = feed (d :: ds) s'

/-- R89: the engine's result is the bit-serial reflected CRC with its two bytes swapped; on "123456789" they are 0x374B
and 0x4B37. -/
def Obligations.ResultIsSwappedBitSerialCrc : Prop :=
  (∀ seq : List Byte, crc seq = zext16 ((bitSerial seq).extractLsb' 0 8) <<< 8 |||
    zext16 ((bitSerial seq).extractLsb' 8 8)) ∧
  (∀ seq : List Byte, crc seq = swap16 (bitSerial seq)) ∧
  crc [0x31#8, 0x32#8, 0x33#8, 0x34#8, 0x35#8, 0x36#8, 0x37#8, 0x38#8, 0x39#8] = 0x374B#16 ∧
  bitSerial [0x31#8, 0x32#8, 0x33#8, 0x34#8, 0x35#8, 0x36#8, 0x37#8, 0x38#8, 0x39#8] = 0x4B37#16

/-- R90: appending R's two bytes, high byte first, gives zero. -/
def Obligations.ResidueIsZero : Prop :=
  ∀ (seq : List Byte) (h l : Byte), crc seq = h ++ l → crc (seq ++ [h, l]) = 0x0000#16

/-- R139: `CALC seq` takes n + 1 edges and `BENCH N, seq` takes N × (n + 1); the reading just after the last edge of
`CALC seq` is crc(seq). -/
def Obligations.CalculationEdgeCounts : Prop :=
  (∀ seq : List Byte, (calcLines seq).length = seq.length + 1) ∧
  (∀ (n : Nat) (seq : List Byte), (benchLines n seq).length = n * (seq.length + 1)) ∧
  ∀ (seq : List Byte) (s : State), s.refused = false →
    (readings (seq.length + 1) (s.withInputs ((calcLines seq).map Line.drive)))[seq.length]? = some (.next (crc seq))

/-- A run whose host keeps its duties (R111, R113, R115) never stops and is never refused, from any state whose mark is
clear. Where a calculation has started, it has at most 256 bytes, and the register, the reading and R are those of
crc of exactly its bytes; where none has, the register is as it was. That op 0b11 in a cycle with `rst = 1` breaks no duty
is inferred, not R115's words (log entry 20). -/
def Obligations.DutifulRunComputesCrc : Prop :=
  ∀ (ds : List Drive) (s : State), s.refused = false → keepsDuties none ds = true →
    ∃ t, feed ds s = .next t ∧ t.refused = false ∧ (calculation none ds = none → t.crc = s.crc) ∧
      ∀ seq, calculation none ds = some seq →
        seq.length ≤ 256 ∧ t.crc = some (seq.foldl upd ⟨0xFF#8, 0xFF#8⟩) ∧ t.readR = .next (crc seq)

/-! ## The assembler (30_encoding.md R69 to R71) -/

/-- R70: CALC expands to INIT and one UPDATE a byte in order, is refused above 256 operands, and leaves crc(seq) on
`crc_out`. -/
def Obligations.CalcExpands : Prop :=
  ∀ seq : List Byte,
    (seq.length ≤ 256 → (Stmt.calc seq).expand = .ok (.init :: seq.map Line.update)) ∧
    (256 < seq.length → (Stmt.calc seq).expand = .error .tooManyBytes) ∧
    ∀ (s : State) (ls : List Line), s.refused = false → (Stmt.calc seq).expand = .ok ls →
      ∃ t, feed (ls.map Line.drive) s = .next t ∧ t.crcOut = some (crc seq)

/-- BENCH expands to N copies of CALC for N in 1..1_000_000_000 and leaves the same value as one CALC (R71, R121). That N
outside that range is refused, and with that error whatever the number of bytes, is the model's choice (log entry 22). -/
def Obligations.BenchExpands : Prop :=
  ∀ (n : Nat) (seq : List Byte),
    (1 ≤ n → n ≤ 1000000000 → seq.length ≤ 256 →
      (Stmt.bench n seq).expand = .ok ((List.replicate n (calcLines seq)).flatten)) ∧
    (n = 0 ∨ 1000000000 < n → (Stmt.bench n seq).expand = .error .iterationsOutOfRange) ∧
    ∀ (s : State) (ls : List Line), s.refused = false → (Stmt.bench n seq).expand = .ok ls →
      ∃ t, feed (ls.map Line.drive) s = .next t ∧ t.crcOut = some (crc seq)

/-- R69: `UPDATE` with a byte in either form of the grammar, its digits in upper case, and the mnemonic in either case, with
or without a label and a comment, assembles to that UPDATE. The blanks, and the spacing of the label and the comment, are
the model's choice (log entry 12). -/
def Obligations.UpdateTextAssembles : Prop :=
  ∀ b : Byte,
    assembleLine (['U', 'P', 'D', 'A', 'T', 'E', ' '] ++ hexOfByte b) = .ok [.update b] ∧
    assembleLine (['u', 'p', 'd', 'a', 't', 'e', ' ', '0', 'x'] ++ hexOfByte b) = .ok [.update b] ∧
    assembleLine (['a', ':', ' ', 'U', 'p', 'd', 'a', 't', 'e', ' '] ++ hexOfByte b ++ [' ', ';', 'c']) =
      .ok [.update b]

/-! ## The host software (60_exceptions.md R116 to R122) -/

/-- The text a result is rendered as (R116) parses back to its two bytes, high byte first (R119). -/
def Obligations.RenderedResultParsesBack : Prop :=
  ∀ r : Word16, parse (render r) = .ok [r.extractLsb' 8 8, r.extractLsb' 0 8]

/-- R118: an odd character count fails with OddLengthError, more than 256 bytes with TooLongError, and a text that is
both with one of the two; a text that fails a length check reports no HexParseError. -/
def Obligations.LengthChecksComeFirst : Prop :=
  ∀ text : List Char,
    ((removeWhitespace text).length % 2 = 1 → (removeWhitespace text).length ≤ 512 → parse text = .error .oddLength) ∧
    ((removeWhitespace text).length % 2 = 0 → 512 < (removeWhitespace text).length → parse text = .error .tooLong) ∧
    ((removeWhitespace text).length % 2 = 1 → 512 < (removeWhitespace text).length →
      parse text = .error .oddLength ∨ parse text = .error .tooLong)

/-- A parsed sequence has one byte a group and at most 256 bytes (R113, R119); a HexParseError names a group of the text
that holds a character which is no hex digit (R119). -/
def Obligations.ParserAnswers : Prop :=
  (∀ (text : List Char) (seq : List Byte), parse text = .ok seq →
    seq.length ≤ 256 ∧ (removeWhitespace text).length = 2 * seq.length ∧
      (groups (removeWhitespace text)).map hexByte = seq.map some) ∧
  (∀ (text g : List Char) (k : Nat), parse text = .error (.hexParse g k) →
    g ∈ groups (removeWhitespace text) ∧ ∃ c ∈ g, hexDigit c = none)

/-- The host's answer (R120, R121): for a request within the contract, a parsed text gets the rendered crc of its bytes
with the exact average, whatever the block's state before, and a parsing error gets its kind. -/
def Obligations.HostAnswersWithChecksum : Prop :=
  ∀ (draw : Nat) (r : Request) (s : State), 1 ≤ r.iterations → r.iterations ≤ 1000000000 → s.refused = false →
    (∀ seq, parse r.text = .ok seq →
      serve draw r s = some (.success (render (crc seq)) (Config.totalDuration draw)
        (Config.totalDuration draw / r.iterations))) ∧
    (∀ e, parse r.text = .error e → serve draw r s = some (.failure e.kind (Config.errorMessage draw r.text)))

/-- R122: the lines issued before cancellation are whole iterations, one for each poll before the first set flag. That the
flag is polled before the first iteration too is the model's choice (log entry 21). -/
def Obligations.CancellationAtCalculationBoundary : Prop :=
  ∀ (seq : List Byte) (flags : List Bool),
    cancellableLines seq flags = benchLines (flags.takeWhile fun f => !f).length seq

/-- Levels that are not defined are refused at every edge of a state whose mark is clear (R115; log entry 6). -/
def Obligations.UndefinedLevelsAreRefused : Prop :=
  ∀ (s : State) (ds : List Drive), s.refused = false → s.inputs = .undefinedLevels :: ds →
    step s = .refused .undefinedInput
end

