-- ==== Sys2Proof/Laws/Decode.lean ====
section
/-! SUPPORT. The two fields of a command word and their join: what the decoder's proofs need of bit slicing. -/

namespace Sys2Proof

@[simp] theorem opField_joinFields (op : CmdOp) (byte : Byte) : opField (joinFields op byte) = op := by
  unfold opField joinFields
  ext i hi
  simp only [BitVec.getElem_extractLsb', BitVec.getLsbD_append]
  simp [show ¬ 8 + i < 8 by omega, BitVec.getLsbD_eq_getElem hi]

@[simp] theorem byteField_joinFields (op : CmdOp) (byte : Byte) : byteField (joinFields op byte) = byte := by
  unfold byteField joinFields
  ext i hi
  simp only [BitVec.getElem_extractLsb', BitVec.getLsbD_append]
  simp [hi]

theorem joinFields_fields (w : CmdWord) : joinFields (opField w) (byteField w) = w := by
  unfold opField byteField joinFields
  ext i hi
  simp only [BitVec.getElem_append]
  split
  · simp [BitVec.getElem_extractLsb', BitVec.getLsbD_eq_getElem hi]
  · rename_i h
    simp only [BitVec.getElem_extractLsb', show 8 + (i - 8) = i by omega,
      BitVec.getLsbD_eq_getElem hi]

/-- Every op value is one of the four of R62. -/
theorem cmdOp_cases (op : CmdOp) : op = 0b00#2 ∨ op = 0b01#2 ∨ op = 0b10#2 ∨ op = 0b11#2 := by
  revert op; decide

@[simp] theorem Machine.portWord_fields (w : CmdWord) : Machine.portWord (opField w) (byteField w) = w :=
  joinFields_fields w

end Sys2Proof
end

