-- ==== Sys2Proof/Laws/State.lean ====
section
/-! SUPPORT. The fields of State after each update: one lemma per field per update, so that no later proof unfolds a
record update. -/

namespace Sys2Proof.Machine

@[simp] theorem State.loadInit_crc (s : State) : s.loadInit.crc = some initPair := rfl
@[simp] theorem State.loadInit_refused (s : State) : s.loadInit.refused = s.refused := rfl
@[simp] theorem State.loadInit_inputs (s : State) : s.loadInit.inputs = s.inputs := rfl

@[simp] theorem State.consume_crc (b : Byte) (s : State) :
    (s.consume b).crc = s.crc.map fun p => upd p b := rfl
@[simp] theorem State.consume_refused (b : Byte) (s : State) : (s.consume b).refused = s.refused := rfl
@[simp] theorem State.consume_inputs (b : Byte) (s : State) : (s.consume b).inputs = s.inputs := rfl

@[simp] theorem State.withInputs_crc (ds : List Drive) (s : State) : (s.withInputs ds).crc = s.crc := rfl
@[simp] theorem State.withInputs_refused (ds : List Drive) (s : State) :
    (s.withInputs ds).refused = s.refused := rfl
@[simp] theorem State.withInputs_inputs (ds : List Drive) (s : State) : (s.withInputs ds).inputs = ds := rfl
@[simp] theorem State.withInputs_withInputs (ds es : List Drive) (s : State) :
    (s.withInputs ds).withInputs es = s.withInputs es := rfl

@[simp] theorem State.presentWord_crc (w : CmdWord) (s : State) : (s.presentWord w).crc = s.crc := rfl
@[simp] theorem State.presentWord_refused (w : CmdWord) (s : State) :
    (s.presentWord w).refused = s.refused := rfl
@[simp] theorem State.presentWord_inputs (w : CmdWord) (s : State) :
    (s.presentWord w).inputs = Drive.ofWord w :: s.inputs.tail := rfl

@[simp] theorem State.markRefused_crc (s : State) : s.markRefused.crc = none := rfl
@[simp] theorem State.markRefused_refused (s : State) : s.markRefused.refused = true := rfl
@[simp] theorem State.markRefused_inputs (s : State) : s.markRefused.inputs = s.inputs.tail := rfl

@[simp] theorem State.withFetchWord_crc (s : State) (nbits w : Nat) :
    (s.withFetchWord nbits w).crc = s.crc := rfl
@[simp] theorem State.withFetchWord_refused (s : State) (nbits w : Nat) :
    (s.withFetchWord nbits w).refused = s.refused := rfl
@[simp] theorem State.withFetchWord_inputs (s : State) (nbits w : Nat) :
    (s.withFetchWord nbits w).inputs =
      Drive.ofWord (BitVec.ofNat 10 (w % 2 ^ nbits)) :: s.inputs.tail := rfl

end Sys2Proof.Machine
end

