-- ==== Sys2Proof/Laws/Ops.lean ====
section
/-! SUPPORT. What each shared operation can do, said once: the read of R, the sampling of the ports, the dispatch, one
edge and one step. -/

namespace Sys2Proof.Machine

/-- A read gives R exactly from a valued register whose mark is clear. -/
theorem State.readR_next {s : State} {r : Word16} (h : s.readR = .next r) :
    s.refused = false ∧ s.crcOut = some r := by
  unfold State.readR at h
  split at h
  · cases h
  · split at h <;> simp_all

/-- A read faults only on an unvalued register. -/
theorem State.readR_fault {s : State} {r : Fault} (h : s.readR = .fault r) :
    s.refused = false ∧ s.crc = none ∧ r = .unvaluedRead := by
  unfold State.readR at h
  split at h
  · cases h
  · split at h <;> simp_all [State.crcOut]

/-- The read of R depends on the register and the mark alone. -/
theorem State.readR_congr {s t : State} (hc : s.crc = t.crc) (hr : s.refused = t.refused) :
    s.readR = t.readR := by
  simp [State.readR, State.crcOut, hc, hr]

theorem State.nextDrive_nil {s : State} (h : s.inputs = []) : s.nextDrive = none := by
  simp [State.nextDrive, h]

theorem State.nextDrive_cons {s : State} {d : Drive} {ds : List Drive} (h : s.inputs = d :: ds) :
    s.nextDrive = some (d, s.withInputs ds) := by
  simp [State.nextDrive, h]

@[simp] theorem State.nextDrive_withInputs_cons (s : State) (d : Drive) (ds : List Drive) :
    (s.withInputs (d :: ds)).nextDrive = some (d, s.withInputs ds) := rfl

/-- A command that gives a next state is one of three, and only its own effect happens. -/
theorem exec_next {i : Instr} {s t : State} (h : exec i s = .next t) :
    (i = .idle ∧ t = s) ∨ (i = .init ∧ t = s.loadInit) ∨ ∃ b, i = .update b ∧ t = s.consume b := by
  cases i with
  | idle => cases h; exact .inl ⟨rfl, rfl⟩
  | init => cases h; exact .inr (.inl ⟨rfl, rfl⟩)
  | update b => cases h; exact .inr (.inr ⟨b, rfl, rfl⟩)
  | reserved b => cases h

/-- The only refusal of a command is that of the reserved op. -/
theorem exec_refused {i : Instr} {s : State} {r : Refusal} (h : exec i s = .refused r) :
    (∃ b, i = .reserved b) ∧ r = .reservedOp := by
  cases i with
  | idle => cases h
  | init => cases h
  | update b => cases h
  | reserved b => cases h; exact ⟨⟨b, rfl⟩, rfl⟩

/-- The register an edge leaves, where the edge goes on. -/
theorem clockEdge_next {d : Drive} {s t : State} (h : clockEdge d s = .next t) :
    (∃ op byte, d = .levels true op byte ∧ t = s.loadInit) ∨
      ∃ op byte, d = .levels false op byte ∧ exec (decode (portWord op byte)) s = .next t := by
  match d, h with
  | .levels true op byte, h => cases h; exact .inl ⟨op, byte, rfl, rfl⟩
  | .levels false op byte, h => exact .inr ⟨op, byte, rfl, h⟩

/-- An edge keeps the mark and the schedule, whatever it does to the register. -/
theorem clockEdge_frame {d : Drive} {s t : State} (h : clockEdge d s = .next t) :
    t.refused = s.refused ∧ t.inputs = s.inputs := by
  obtain ⟨_, _, rfl, rfl⟩ | ⟨_, _, rfl, h⟩ := clockEdge_next h
  · exact ⟨rfl, rfl⟩
  · obtain ⟨_, rfl⟩ | ⟨_, rfl⟩ | ⟨_, _, rfl⟩ := exec_next h <;> exact ⟨rfl, rfl⟩

theorem step_marked {s : State} (h : s.refused = true) : step s = .refused .refusedMark := by
  simp [step, h]

theorem step_stopped {s : State} (hr : s.refused = false) (hi : s.inputs = []) : step s = .next s := by
  simp [step, hr, State.nextDrive_nil hi]

theorem step_edge {s : State} {d : Drive} {ds : List Drive} (hr : s.refused = false)
    (hi : s.inputs = d :: ds) : step s = clockEdge d (s.withInputs ds) := by
  simp [step, hr, State.nextDrive_cons hi]

/-- Everything a step that goes on can do: hold while the clock is stopped, or one edge. -/
theorem step_next {s t : State} (h : step s = .next t) :
    s.refused = false ∧ ((s.inputs = [] ∧ t = s) ∨
      ∃ d ds, s.inputs = d :: ds ∧ clockEdge d (s.withInputs ds) = .next t) := by
  cases hr : s.refused with
  | true => rw [step_marked hr] at h; cases h
  | false =>
    refine ⟨rfl, ?_⟩
    cases hi : s.inputs with
    | nil => rw [step_stopped hr hi] at h; cases h; exact .inl ⟨rfl, rfl⟩
    | cons d ds => rw [step_edge hr hi] at h; exact .inr ⟨d, ds, rfl, h⟩

/-- A run of the driven levels, one edge at a time. -/
theorem feed_cons {s : State} (hr : s.refused = false) (d : Drive) (ds : List Drive) :
    feed (d :: ds) s = match clockEdge d (s.withInputs ds) with
      | .next t => runEdges ds.length t
      | .fault r => .fault r
      | .refused r => .refused r := by
  have h : step (s.withInputs (d :: ds)) = clockEdge d (s.withInputs ds) :=
    step_edge (s := s.withInputs (d :: ds)) hr rfl
  cases hc : clockEdge d (s.withInputs ds) <;> simp [feed, runEdges, h, hc]

@[simp] theorem feed_nil (s : State) : feed [] s = .next (s.withInputs []) := rfl

end Sys2Proof.Machine
end

