-- ==== Sys2Proof/Laws/PerInstr.lean ====
section
/-! SUPPORT. Statements made for every command as syntax, one lemma per constructor. -/

namespace Sys2Proof.Laws.OpOfEncoding

/-- The canonical word of a command carries the command's op value of R62, and the reserved op exactly when the
command is not one a host may issue (R65). -/
def Statement (i : Instr) : Prop := opField (encode i) = i.op ∧ (i.wf = false ↔ i.op = 0b11#2)

theorem idle : Statement .idle := ⟨opField_joinFields _ _, by decide⟩

theorem init : Statement .init := ⟨opField_joinFields _ _, by decide⟩

theorem update (b : Byte) : Statement (.update b) :=
  ⟨opField_joinFields _ _, by simp [Instr.wf, Instr.op]⟩

theorem reserved (byte : Byte) : Statement (.reserved byte) :=
  ⟨opField_joinFields _ _, by simp [Instr.wf, Instr.op]⟩

end Sys2Proof.Laws.OpOfEncoding
end

