-- ==== Sys2Proof/Laws/Rom.lean ====
section
/-! SUPPORT. The bit step that generates the ROM is linear over exclusive-or; small laws of the register fold. -/

namespace Sys2Proof.Machine

theorem bitStep_xor (a b : Word16) : bitStep (a ^^^ b) = bitStep a ^^^ bitStep b := by
  have cancel (x y p : Word16) : x ^^^ y = x ^^^ p ^^^ (y ^^^ p) := by
    rw [show x ^^^ p ^^^ (y ^^^ p) = x ^^^ y ^^^ (p ^^^ p) by ac_rfl, BitVec.xor_self, BitVec.xor_zero]
  unfold bitStep
  rw [BitVec.getLsbD_xor, BitVec.ushiftRight_xor_distrib]
  cases a.getLsbD 0 <;> cases b.getLsbD 0 <;> simp only [Bool.xor_false, Bool.xor_true, Bool.not_true,
    Bool.not_false, Bool.false_eq_true, if_true, if_false]
  · ac_rfl
  · ac_rfl
  · exact cancel _ _ _

theorem bitSteps_xor (n : Nat) (a b : Word16) : bitSteps n (a ^^^ b) = bitSteps n a ^^^ bitSteps n b := by
  induction n generalizing a b with
  | zero => rfl
  | succ n ih => simp only [bitSteps, bitStep_xor, ih]

@[simp] theorem foldUpd_nil (p : CrcPair) : foldUpd p [] = p := rfl

@[simp] theorem foldUpd_cons (p : CrcPair) (b : Byte) (seq : List Byte) :
    foldUpd p (b :: seq) = foldUpd (upd p b) seq := rfl

theorem foldUpd_append (p : CrcPair) (xs ys : List Byte) :
    foldUpd p (xs ++ ys) = foldUpd (foldUpd p xs) ys := by
  simp [foldUpd]

end Sys2Proof.Machine
end

