-- ==== Sys2Proof/Machine/Flags.lean ====
section
/-! DEFINITION. Flags: none to compute. "The block has no status flags, condition codes or predicates. No command sets a
flag as a side effect" (10_state.md R27), and it has no control or status register (R28). This file is the place a flag
computation would stand; it declares nothing. -/
end

