-- ==== Sys2Proof/Tests/Slice0.lean ====
section
/-! SUPPORT. The model's own tests. Expected values come from the spec: the encodings of 30_encoding.md and the vectors of
95_test_vectors.md, named in each comment. -/

namespace Sys2Proof.Tests

open Sys2Proof.Machine Sys2Proof.Safety

/-- A state with a valued register, a clear mark and a schedule. -/
def st (hi lo : Byte) (inputs : List Drive) : State := { crc := some ⟨hi, lo⟩, refused := false, inputs := inputs }

/-- A state with an unvalued register, a clear mark and a schedule. -/
def unvalued (inputs : List Drive) : State := { crc := none, refused := false, inputs := inputs }

/-- The levels of a command word with `rst = 0`. -/
def cmd (w : CmdWord) : Drive := Drive.ofWord w

/-- The register after one outcome. -/
def regOf : Host.Outcome State Fault Refusal → Option (Option CrcPair)
  | .next t => some t.crc
  | .fault _ => none
  | .refused _ => none

/-- The word a read gives. -/
def wordOf : Host.Outcome Word16 Fault Refusal → Option Word16
  | .next r => some r
  | .fault _ => none
  | .refused _ => none

/-! ## WellFormed smoke test -/

theorem test_wf_refuses_reserved : (Instr.reserved 0xA5#8).wf = false := by decide
theorem test_wf_admits_update : (Instr.update 0xFF#8).wf = true := by decide

/-! ## Decoding: words written out from R60 and R62, the op in bits 9:8 -/

theorem test_decode_idle : decode 0b0000000000#10 = .idle := by decide
theorem test_decode_idle_ignores_byte : decode 0b0011111111#10 = .idle := by decide  -- V-N2, word 0x0FF
theorem test_decode_init : decode 0b0110100101#10 = .init := by decide               -- V-I2, word 0x1A5
theorem test_decode_update : decode 0b1011000100#10 = .update 0xC4#8 := by decide    -- R68, word 0x2C4
theorem test_decode_reserved : decode 0b1110100101#10 = .reserved 0xA5#8 := by decide  -- R84, word 0x3A5
theorem test_decode_table_word : decodeTableWord 16 0x201 = some (.update 0x01#8) := by decide
theorem test_decode_table_word_too_wide : decodeTableWord 16 0x600 = none := by decide

/-! ## The ROM: V-R3 and V-R9 -/

theorem test_rom_entry_2 : tableHi 0x02#8 = 0x81#8 ∧ tableLo 0x02#8 = 0xC1#8 := by decide
theorem test_rom_entry_6E : memRead 0x6E#8 = 0xEC81#16 := by decide

/-! ## Commands, one step each -/

theorem test_idle_holds : regOf (exec .idle (st 0x37#8 0x4B#8 [])) = some (some ⟨0x37#8, 0x4B#8⟩) := by decide  -- V-N1
theorem test_init_from_unvalued : regOf (exec .init (unvalued [])) = some (some ⟨0xFF#8, 0xFF#8⟩) := by decide  -- V-I3
theorem test_update_second_byte :
    regOf (exec (.update 0x10#8) (st 0x7E#8 0x80#8 [])) = some (some ⟨0x01#8, 0xEC#8⟩) := by decide  -- V-U10
theorem test_update_unvalued : regOf (exec (.update 0x31#8) (unvalued [])) = some none := by decide  -- V-U11
theorem test_reserved_refused : regOf (step (st 0x01#8 0xEC#8 [cmd 0x3A5#10])) = none := by decide  -- V-X1
theorem test_reserved_sets_mark : (carryOn (st 0x01#8 0xEC#8 [cmd 0x300#10])).refused = true := by decide  -- V-X2
theorem test_reset_wins :
    regOf (step (st 0x01#8 0xEC#8 [.levels true 0b11#2 0xA5#8])) = some (some ⟨0xFF#8, 0xFF#8⟩) := by decide  -- V-X3
theorem test_step_after_reset :
    regOf (step (State.reset.withFetchWord 16 0x201)) = some (some ⟨0x7E#8, 0x80#8⟩) := by decide  -- V-U1
theorem test_read_result : wordOf (st 0x7F#8 0x67#8 []).readR = some 0x7F67#16 := by decide  -- V-C8

/-! ## Whole calculations: V-C8 and V-C5 -/

theorem test_crc_known_vector :
    crc [0x01#8, 0x10#8, 0x00#8, 0x11#8, 0x00#8, 0x03#8, 0x06#8, 0x1A#8, 0xC4#8, 0xBA#8, 0xD0#8] = 0x7F67#16 := by
  decide
theorem test_bit_serial_two_bytes : bitSerial [0x01#8, 0x10#8] = 0xEC01#16 := by decide +kernel  -- V-C5

/-! ## Assembler and host software -/

theorem test_assemble_calc :
    assembleLine ['x', ':', ' ', 'c', 'a', 'l', 'c', ' ', '0', '1', ',', ' ', '0', 'x', 'c', '4', ' ', ';', 'y'] =
      .ok [.init, .update 0x01#8, .update 0xC4#8] := by rfl  -- R69, R70
theorem test_assemble_bench_zero : assembleLine ['B', 'E', 'N', 'C', 'H', ' ', '0'] = .error .iterationsOutOfRange := by
  rfl  -- R71
theorem test_parse_space : parse ['0', '1', ' ', '1', '0'] = .ok [0x01#8, 0x10#8] := by rfl  -- S4
theorem test_parse_odd : parse ['0', '1', '0'] = .error .oddLength := by rfl  -- S5
theorem test_parse_nonhex : ∃ k, parse ['Z', 'Z'] = .error (.hexParse ['Z', 'Z'] k) := ⟨_, rfl⟩  -- S7
theorem test_parse_case : parse ['c', '4'] = parse ['C', '4'] := by rfl  -- S9
theorem test_render : render 0x01EC#16 = ['0', '1', 'E', 'C'] := by decide  -- R116

/-! ## Witnesses: each statement with hypotheses has states and operands that meet them -/

theorem witness_DecodeEncodeAgree :
    10 ≤ 16 ∧ decode 0x2C4#10 = .update 0xC4#8 ∧ decode 0x3FF#10 = .reserved 0xFF#8 ∧
      decode 0x0FF#10 = .idle ∧ decode 0x1FF#10 = .init := by decide

theorem witness_OnlyTenBitNumbersDecode : 1024 ≤ 1024 ∧ decodeNumber 1023 ≠ .error .notTenBits := by
  exact ⟨Nat.le_refl _, by decide⟩

theorem witness_IdleChangesNothing :
    (st 0x37#8 0x4B#8 []).refused = false ∧ (st 0x37#8 0x4B#8 []).crc = some ⟨0x37#8, 0x4B#8⟩ := by decide

theorem witness_InitLoadsCanonicalPair : ∃ t, exec .init (unvalued []) = .next t := ⟨_, rfl⟩

theorem witness_UpdateConsumesOneByte :
    (st 0xA5#8 0x5A#8 []).crc = some ⟨0xA5#8, 0x5A#8⟩ ∧ (unvalued []).crc = none ∧
      (st 0x00#8 0x00#8 []).crc = some ⟨0x00#8, 0x00#8⟩ ∧
      ((st 0xFF#8 0xFF#8 []).refused = false ∧ (st 0xFF#8 0xFF#8 []).crc = some ⟨0xFF#8, 0xFF#8⟩) := by decide

theorem witness_OldLoReachesNewHiOnly :
    (st 0x00#8 0xAB#8 []).crc = some ⟨0x00#8, 0xAB#8⟩ ∧ (st 0x00#8 0x01#8 []).crc = some ⟨0x00#8, 0x01#8⟩ := by decide

theorem witness_ReservedIsRefused :
    (st 0x01#8 0xEC#8 [.levels false 0b11#2 0xFF#8]).inputs = [.levels false 0b11#2 0xFF#8] ∧
      (st 0x01#8 0xEC#8 [.levels true 0b11#2 0x00#8]).inputs = [.levels true 0b11#2 0x00#8] ∧
      (st 0x01#8 0xEC#8 [.levels false 0b11#2 0xFF#8]).refused = false ∧
      (st 0x01#8 0xEC#8 [.levels true 0b11#2 0x00#8]).refused = false := by decide

theorem witness_StepRunsDecodedCommand :
    (st 0x7E#8 0x80#8 [.levels false 0b10#2 0x10#8]).refused = false ∧
      (st 0x7E#8 0x80#8 [.levels false 0b10#2 0x10#8]).inputs = [.levels false 0b10#2 0x10#8] ∧ 10 ≤ 10 := by decide

/-- One state for each clause: `rst`, and each of the four ops, UPDATE on an unvalued and on a valued register. -/
theorem witness_NextStateByCases :
    (st 0x12#8 0x34#8 [.levels true 0b10#2 0xC4#8]).inputs = [.levels true 0b10#2 0xC4#8] ∧
      (st 0x37#8 0x4B#8 [.levels false 0b00#2 0xFF#8]).inputs = [.levels false 0b00#2 0xFF#8] ∧
      (unvalued [.levels false 0b01#2 0xFF#8]).inputs = [.levels false 0b01#2 0xFF#8] ∧
      ((unvalued [.levels false 0b10#2 0x31#8]).inputs = [.levels false 0b10#2 0x31#8] ∧
        (unvalued [.levels false 0b10#2 0x31#8]).crc = none) ∧
      ((st 0xFF#8 0x00#8 [.levels false 0b10#2 0x80#8]).inputs = [.levels false 0b10#2 0x80#8] ∧
        (st 0xFF#8 0x00#8 [.levels false 0b10#2 0x80#8]).crc = some ⟨0xFF#8, 0x00#8⟩) ∧
      (st 0x01#8 0xEC#8 [.levels false 0b11#2 0x00#8]).inputs = [.levels false 0b11#2 0x00#8] := by decide

theorem witness_ResetEdgeWins :
    ((unvalued [.levels true 0b00#2 0x00#8]).refused = false ∧
      (unvalued [.levels true 0b00#2 0x00#8]).inputs = [.levels true 0b00#2 0x00#8]) ∧
    (({ crc := none, refused := true, inputs := [.levels true 0b11#2 0xA5#8] } : State).refused = true) := by decide

theorem witness_OnlyThreeWriters :
    (∃ t, step State.reset = .next t) ∧ (∃ t, step (unvalued [.levels true 0b11#2 0x00#8]) = .next t) ∧
      (∃ t, step (unvalued [cmd 0x100#10]) = .next t) ∧ (∃ t, step (unvalued [cmd 0x2FF#10]) = .next t) ∧
      (∃ t, step (unvalued [cmd 0x0FF#10]) = .next t) :=
  ⟨⟨_, rfl⟩, ⟨_, rfl⟩, ⟨_, rfl⟩, ⟨_, rfl⟩, ⟨_, rfl⟩⟩

theorem witness_StoppedClockHoldsState : State.reset.refused = false ∧ State.reset.inputs = [] := by decide

theorem witness_BlockRaisesNoException : Instr.idle.wf = true ∧ Instr.init.wf = true ∧ (Instr.update 0x00#8).wf = true := by
  decide

theorem witness_RefusalCauses :
    step { State.reset with refused := true } = .refused .refusedMark ∧
      step (st 0x01#8 0xEC#8 [.undefinedLevels]) = .refused .undefinedInput ∧
      step (st 0x01#8 0xEC#8 [cmd 0x3FF#10]) = .refused .reservedOp := ⟨rfl, rfl, rfl⟩

theorem witness_RefusedMarkIsSticky :
    ({ crc := some ⟨0x01#8, 0xEC#8⟩, refused := true, inputs := [cmd 0x100#10] } : State).refused = true := by decide

theorem witness_ReadGivesRegister :
    ((st 0xFF#8 0x00#8 []).refused = false ∧ (st 0xFF#8 0x00#8 []).crc = some ⟨0xFF#8, 0x00#8⟩) ∧
      State.powerUp.refused = false ∧ State.powerUp.crc = none := by decide

theorem witness_ReadingIsRegistered :
    (st 0x37#8 0x4B#8 [cmd 0x000#10]).inputs = [cmd 0x000#10] ∧ writesRegister (cmd 0x000#10) = false ∧
      ∃ t, step (st 0x37#8 0x4B#8 [cmd 0x000#10]) = .next t := ⟨rfl, rfl, _, rfl⟩

theorem witness_StepKeepsReadable :
    Readable (st 0x01#8 0xEC#8 [cmd 0x210#10]) ∧ (∃ t, step (st 0x01#8 0xEC#8 [cmd 0x210#10]) = .next t) ∧
      ∃ t, runEdges 2 (st 0x01#8 0xEC#8 [cmd 0x210#10]) = .next t := ⟨⟨rfl, rfl⟩, ⟨_, rfl⟩, _, rfl⟩

theorem witness_PowerUpStaysUnvalued :
    State.powerUp.refused = false ∧ State.powerUp.crc = none ∧
      ∀ d ∈ [cmd 0x231#10, cmd 0x000#10],
        ∃ op byte, d = .levels false op byte ∧ (op = 0b00#2 ∨ op = 0b10#2) := by
  refine ⟨rfl, rfl, fun d hd => ?_⟩
  rcases List.mem_cons.mp hd with rfl | hd
  · exact ⟨_, _, rfl, .inr rfl⟩
  · exact ⟨0b00#2, 0x00#8, List.mem_singleton.mp hd, .inl rfl⟩

theorem witness_CalcLeavesResult :
    State.powerUp.refused = false ∧
      withoutIdles [cmd 0x100#10, cmd 0x0FF#10, cmd 0x201#10] = (calcLines [0x01#8]).map Line.drive := by decide

theorem witness_IdlesNeverMatter : (unvalued []).refused = false ∧ withoutIdles [cmd 0x000#10] = [] := by decide

theorem witness_BenchLeavesSameResult : 1 ≤ 1 ∧ State.powerUp.refused = false := by decide

theorem witness_NoLeakBetweenCalculations :
    (unvalued []).refused = false ∧ (st 0x12#8 0x34#8 []).refused = false ∧
      ∃ op byte, cmd 0x1A5#10 = .levels true op byte ∨ (cmd 0x1A5#10 = .levels false op byte ∧ op = 0b01#2) :=
  ⟨rfl, rfl, 0b01#2, 0xA5#8, .inr ⟨rfl, rfl⟩⟩

theorem witness_ResidueIsZero : crc [0x01#8, 0x10#8] = 0x01#8 ++ 0xEC#8 := by decide  -- V-C5

theorem witness_CalculationEdgeCounts : State.reset.refused = false := by decide

theorem witness_DutifulRunComputesCrc :
    State.powerUp.refused = false ∧
      (keepsDuties none [cmd 0x000#10] = true ∧ calculation none [cmd 0x000#10] = none) ∧
      (keepsDuties none [cmd 0x000#10, cmd 0x100#10, cmd 0x201#10, .levels true 0b11#2 0x00#8, cmd 0x2C4#10] = true ∧
        calculation none [cmd 0x000#10, cmd 0x100#10, cmd 0x201#10, .levels true 0b11#2 0x00#8, cmd 0x2C4#10] =
          some [0xC4#8]) := by decide

theorem witness_CalcExpands :
    ([] : List Byte).length ≤ 256 ∧ 256 < (List.replicate 257 0x00#8).length ∧ State.reset.refused = false ∧
      (Stmt.calc []).expand = .ok [.init] := 
  ⟨by decide, by rw [List.length_replicate]; decide, rfl, rfl⟩

theorem witness_BenchExpands :
    1 ≤ 1000000000 ∧ 1000000000 ≤ 1000000000 ∧ 1000000000 < 1000000001 ∧ State.reset.refused = false ∧
      (Stmt.bench 1 [0xC4#8]).expand = .ok [.init, .update 0xC4#8] := ⟨by omega, by omega, by omega, rfl, rfl⟩

/-- A text of `n` zero digits keeps its length when whitespace is removed. -/
theorem length_zero_digits (n : Nat) : (removeWhitespace (List.replicate n '0')).length = n := by
  have h : isWhitespace '0' = false := rfl
  simp [removeWhitespace, h]

theorem witness_LengthChecksComeFirst :
    ((removeWhitespace (List.replicate 511 '0')).length % 2 = 1 ∧
      (removeWhitespace (List.replicate 511 '0')).length ≤ 512) ∧
    ((removeWhitespace (List.replicate 514 '0')).length % 2 = 0 ∧
      512 < (removeWhitespace (List.replicate 514 '0')).length) ∧
    ((removeWhitespace (List.replicate 513 '0')).length % 2 = 1 ∧
      512 < (removeWhitespace (List.replicate 513 '0')).length) := by
  rw [length_zero_digits, length_zero_digits, length_zero_digits]; decide

theorem witness_ParserAnswers :
    parse ['F', 'f'] = .ok [0xFF#8] ∧ ∃ k, parse ['0', '0', 'Z', 'Z'] = .error (.hexParse ['Z', 'Z'] k) :=
  ⟨rfl, _, rfl⟩

theorem witness_HostAnswersWithChecksum :
    (1 ≤ (⟨['C', '4'], 1000000000⟩ : Request).iterations ∧ (⟨['C', '4'], 1000000000⟩ : Request).iterations ≤ 1000000000) ∧
      State.powerUp.refused = false ∧ parse ['C', '4'] = .ok [0xC4#8] ∧ parse ['C'] = .error .oddLength :=
  ⟨⟨by decide, by decide⟩, rfl, rfl, rfl⟩

theorem witness_UndefinedLevelsAreRefused :
    (st 0x01#8 0xEC#8 [.undefinedLevels]).refused = false ∧
      (st 0x01#8 0xEC#8 [.undefinedLevels]).inputs = [.undefinedLevels] := by decide

end Sys2Proof.Tests
end

section
/-! Proofs of the family 00_scope.md. First the rules on runs of edges, on readable states and on a presented command
word, then the two obligations they settle. -/

namespace Sys2Proof.Machine

open Sys2Proof.Safety

/-! ## Runs of edges -/

/-- A run of one more edge that goes on is a step that goes on, then a run that goes on. -/
theorem runEdges_succ_next {n : Nat} {s t : State} (h : runEdges (n + 1) s = .next t) :
    ∃ u, step s = .next u ∧ runEdges n u = .next t := by
  unfold runEdges at h
  cases hs : step s with
  | next u => rw [hs] at h; exact ⟨u, rfl, h⟩
  | fault r => rw [hs] at h; cases h
  | refused r => rw [hs] at h; cases h

/-- What every step keeps, every run of edges keeps. -/
theorem runEdges_keeps {P : State → Prop} (hstep : ∀ s t, P s → step s = .next t → P t) (n : Nat) {s t : State}
    (hs : P s) (h : runEdges n s = .next t) : P t := by
  induction n generalizing s with
  | zero => cases h; exact hs
  | succ n ih =>
    obtain ⟨u, hu, ht⟩ := runEdges_succ_next h
    exact ih (hstep s u hs hu) ht

/-! ## Readable states -/

theorem readable_withInputs {s : State} (hs : Readable s) (ds : List Drive) : Readable (s.withInputs ds) := hs

theorem readable_loadInit {s : State} (hr : s.refused = false) : Readable s.loadInit := ⟨hr, rfl⟩

theorem readable_consume {s : State} (hs : Readable s) (b : Byte) : Readable (s.consume b) := by
  obtain ⟨hr, hc⟩ := hs
  exact ⟨hr, by simpa using hc⟩

/-- The read of R from a readable state is a value. -/
theorem readR_of_readable {s : State} (hs : Readable s) : ∃ r, s.readR = .next r := by
  obtain ⟨hr, hc⟩ := hs
  obtain ⟨p, hp⟩ := Option.isSome_iff_exists.mp hc
  exact ⟨p.join, by simp [State.readR, State.crcOut, hr, hp]⟩

theorem exec_keeps_readable {i : Instr} {s t : State} (hs : Readable s) (h : exec i s = .next t) : Readable t := by
  obtain ⟨-, rfl⟩ | ⟨-, rfl⟩ | ⟨b, -, rfl⟩ := exec_next h
  · exact hs
  · exact readable_loadInit hs.1
  · exact readable_consume hs b

theorem clockEdge_keeps_readable {d : Drive} {s t : State} (hs : Readable s) (h : clockEdge d s = .next t) :
    Readable t := by
  obtain ⟨_, _, -, rfl⟩ | ⟨_, _, -, hexec⟩ := clockEdge_next h
  · exact readable_loadInit hs.1
  · exact exec_keeps_readable hs hexec

theorem step_keeps_readable {s t : State} (hs : Readable s) (h : step s = .next t) : Readable t := by
  obtain ⟨-, ⟨-, rfl⟩ | ⟨d, ds, -, hedge⟩⟩ := step_next h
  · exact hs
  · exact clockEdge_keeps_readable (readable_withInputs hs ds) hedge

/-- Settles O26: each effect of a step that goes on keeps the state readable, hence so does a run, and a readable state
reads as a value. -/
theorem stepKeepsReadable : Obligations.StepKeepsReadable := by
  unfold Obligations.StepKeepsReadable
  refine ⟨fun s t hs h => step_keeps_readable hs h, fun n s t hs h => ?_⟩
  have ht : Readable t := runEdges_keeps (fun _ _ => step_keeps_readable) n hs h
  exact readR_of_readable ht

/-! ## The command on the ports -/

/-- An edge with `rst = 0` runs the command its ports hold. -/
theorem step_command {s : State} {op : CmdOp} {byte : Byte} {ds : List Drive} (hr : s.refused = false)
    (hi : s.inputs = .levels false op byte :: ds) :
    step s = exec (decode (portWord op byte)) (s.withInputs ds) := by
  rw [step_edge hr hi]; rfl

/-- An edge at which a command word is presented runs the command it decodes to. -/
theorem step_ofWord {s : State} {w : CmdWord} {ds : List Drive} (hr : s.refused = false)
    (hi : s.inputs = Drive.ofWord w :: ds) : step s = exec (decode w) (s.withInputs ds) := by
  rw [step_command hr hi, portWord_fields]

/-- A command word read as a number of at least ten bits is the word itself. -/
theorem ofNat_toNat_mod_two_pow (w : CmdWord) {n : Nat} (hn : 10 ≤ n) : BitVec.ofNat 10 (w.toNat % 2 ^ n) = w := by
  have hlt : w.toNat < 2 ^ n := w.isLt.trans_le (Nat.pow_le_pow_right (by decide) hn)
  rw [Nat.mod_eq_of_lt hlt, BitVec.ofNat_toNat, BitVec.setWidth_eq]

/-- Giving a command word as the host does, in at least ten bits, presents that word. -/
theorem withFetchWord_toNat (s : State) (w : CmdWord) {n : Nat} (hn : 10 ≤ n) :
    s.withFetchWord n w.toNat = s.presentWord w := by
  unfold State.withFetchWord
  rw [ofNat_toNat_mod_two_pow w hn]

/-- Settles O14: the ports join to the word the decoder reads, whether they are scheduled or given as a number. -/
theorem stepRunsDecodedCommand : Obligations.StepRunsDecodedCommand := by
  unfold Obligations.StepRunsDecodedCommand
  refine ⟨fun s op byte ds hr hi => step_command hr hi, fun s w n hr hn => ?_⟩
  rw [withFetchWord_toNat s w hn, step_ofWord (s := s.presentWord w) hr (s.presentWord_inputs w)]
  rfl

end Sys2Proof.Machine
end

section
/-! Proofs of the family 10_state.md. First the rules on the decoder, the commands on the ports, the start of a calculation,
the refused mark and the reset values, then the five obligations they settle. -/

namespace Sys2Proof.Machine

open Sys2Proof.Safety

/-! ## The command on the ports, by its op -/

@[simp] theorem decode_portWord_idle (byte : Byte) : decode (portWord 0b00#2 byte) = .idle := by
  simp [decode, portWord]

@[simp] theorem decode_portWord_init (byte : Byte) : decode (portWord 0b01#2 byte) = .init := by
  simp [decode, portWord]

@[simp] theorem decode_portWord_update (byte : Byte) : decode (portWord 0b10#2 byte) = .update byte := by
  simp [decode, portWord]

@[simp] theorem decode_portWord_reserved (byte : Byte) : decode (portWord 0b11#2 byte) = .reserved byte := by
  simp [decode, portWord]

/-- The command on the ports, where it goes on, is IDLE, INIT or UPDATE of the port byte, by its op. -/
theorem exec_portWord_next {op : CmdOp} {byte : Byte} {s t : State}
    (h : exec (decode (portWord op byte)) s = .next t) :
    (op = 0b00#2 ∧ t = s) ∨ (op = 0b01#2 ∧ t = s.loadInit) ∨ (op = 0b10#2 ∧ t = s.consume byte) := by
  obtain rfl | rfl | rfl | rfl := cmdOp_cases op
  · rw [decode_portWord_idle] at h; cases h; exact .inl ⟨rfl, rfl⟩
  · rw [decode_portWord_init] at h; cases h; exact .inr (.inl ⟨rfl, rfl⟩)
  · rw [decode_portWord_update] at h; cases h; exact .inr (.inr ⟨rfl, rfl⟩)
  · rw [decode_portWord_reserved] at h; cases h

/-- What an edge that goes on leaves in the register: one case per writer of R22, and IDLE. -/
theorem clockEdge_crc {d : Drive} {s t : State} (h : clockEdge d s = .next t) :
    (∃ op byte, d = .levels true op byte ∧ t.crc = some initPair) ∨
      (∃ byte, d = .levels false 0b01#2 byte ∧ t.crc = some initPair) ∨
      (∃ byte, d = .levels false 0b10#2 byte ∧ t.crc = s.crc.map fun p => upd p byte) ∨
      (∃ byte, d = .levels false 0b00#2 byte ∧ t.crc = s.crc) := by
  obtain ⟨op, byte, rfl, rfl⟩ | ⟨op, byte, rfl, hexec⟩ := clockEdge_next h
  · exact .inl ⟨op, byte, rfl, rfl⟩
  · obtain ⟨rfl, rfl⟩ | ⟨rfl, rfl⟩ | ⟨rfl, rfl⟩ := exec_portWord_next hexec
    · exact .inr (.inr (.inr ⟨byte, rfl, rfl⟩))
    · exact .inr (.inl ⟨byte, rfl, rfl⟩)
    · exact .inr (.inr (.inl ⟨byte, rfl, rfl⟩))

/-- Settles O17: a step that goes on holds or is one edge, which keeps the mark, takes its levels off the schedule and
leaves the register as `clockEdge_crc` says. -/
theorem onlyThreeWriters : Obligations.OnlyThreeWriters := by
  unfold Obligations.OnlyThreeWriters
  intro s t h
  obtain ⟨-, hstopped | ⟨d, ds, hi, hedge⟩⟩ := step_next h
  · exact .inl hstopped
  · obtain ⟨hmark, hinputs⟩ := clockEdge_frame hedge
    exact .inr ⟨d, ds, hi, hinputs, hmark, clockEdge_crc (s := s.withInputs ds) hedge⟩

/-! ## The start of a calculation -/

@[simp] theorem clockEdge_rst (op : CmdOp) (byte : Byte) (s : State) :
    clockEdge (.levels true op byte) s = .next s.loadInit := rfl

@[simp] theorem clockEdge_init (byte : Byte) (s : State) :
    clockEdge (.levels false 0b01#2 byte) s = .next s.loadInit := by
  change exec (decode (portWord 0b01#2 byte)) s = _
  rw [decode_portWord_init]; rfl

/-- Loading the canonical pair in a state whose mark is clear leaves the reset state with the schedule still to come:
nothing of the old register is left. -/
theorem loadInit_withInputs {s : State} (hr : s.refused = false) (ds : List Drive) :
    (s.withInputs ds).loadInit = State.reset.withInputs ds := by
  simp [State.loadInit, State.withInputs, State.reset, initPair, hr]

/-- A run whose first edge loads the canonical pair is the run of its other edges from reset. -/
theorem feed_cons_of_loadInit {d : Drive} (hd : ∀ s, clockEdge d s = .next s.loadInit) {s : State}
    (hr : s.refused = false) (ds : List Drive) : feed (d :: ds) s = feed ds State.reset := by
  rw [feed_cons hr, hd, loadInit_withInputs hr]; rfl

/-- Settles O31: from either state the run is that of the later edges from reset. -/
theorem noLeakBetweenCalculations : Obligations.NoLeakBetweenCalculations := by
  unfold Obligations.NoLeakBetweenCalculations
  intro d ds s s' hr hr' hstart
  have hd : ∀ u, clockEdge d u = .next u.loadInit := by
    obtain ⟨op, byte, rfl | ⟨rfl, rfl⟩⟩ := hstart
    · exact clockEdge_rst op byte
    · exact clockEdge_init byte
  rw [feed_cons_of_loadInit hd hr, feed_cons_of_loadInit hd hr']

/-! ## The refused mark -/

theorem readR_marked {s : State} (h : s.refused = true) : s.readR = .refused .refusedMark := by
  simp [State.readR, h]

theorem carryOn_marked {s : State} (h : s.refused = true) : carryOn s = s.markRefused := by
  simp [carryOn, step_marked h]

theorem carryOn_keeps_mark {s : State} (h : s.refused = true) : (carryOn s).refused = true := by
  rw [carryOn_marked h, State.markRefused_refused]

theorem carryOnFor_keeps_mark (n : Nat) {s : State} (h : s.refused = true) : (carryOnFor n s).refused = true := by
  induction n generalizing s with
  | zero => exact h
  | succ n ih => exact ih (carryOn_keeps_mark h)

theorem readings_marked (n : Nat) {s : State} (h : s.refused = true) :
    readings n s = List.replicate n (.refused .refusedMark) := by
  induction n generalizing s with
  | zero => rfl
  | succ n ih =>
    have hnext := carryOn_keeps_mark h
    rw [readings, readR_marked hnext, ih hnext, List.replicate_succ]

/-- Settles O21: the mark is kept by every edge, and a marked state refuses steps and readings. -/
theorem refusedMarkIsSticky : Obligations.RefusedMarkIsSticky := by
  unfold Obligations.RefusedMarkIsSticky
  intro n s h
  have hmark := carryOnFor_keeps_mark n h
  exact ⟨hmark, step_marked hmark, readings_marked n h⟩

/-! ## Reset, power-up and the contents of the ROM -/

theorem initPair_join : initPair.join = 0xFFFF#16 := by decide

theorem crcOut_valued {s : State} {p : CrcPair} (hc : s.crc = some p) : s.crcOut = some p.join := by
  simp [State.crcOut, hc]

/-- The read of a valued register whose mark is clear is the join of its halves. -/
theorem readR_valued {s : State} {p : CrcPair} (hr : s.refused = false) (hc : s.crc = some p) :
    s.readR = .next p.join := by
  simp [State.readR, hr, crcOut_valued hc]

theorem crcOut_canonical {s : State} (hc : s.crc = some initPair) : s.crcOut = some 0xFFFF#16 := by
  rw [crcOut_valued hc, initPair_join]

/-- The 256 words of the table in R45 are those R43 generates, checked entry by entry: both sides are closed words. -/
theorem romWord_eq_genWord (i : Byte) : romWord i = genWord i := by
  revert i; decide

/-- Settles O24: the register after an `rst` edge, at reset and at power-up, `crc_out` as its view, and the ROM's split
of the generated words. -/
theorem resetAndPowerUpValues : Obligations.ResetAndPowerUpValues := by
  unfold Obligations.ResetAndPowerUpValues
  refine ⟨fun op byte s => ?_, ⟨rfl, crcOut_canonical rfl⟩, ⟨rfl, rfl⟩, fun i => ?_⟩
  · exact ⟨s.loadInit, clockEdge_rst op byte s, s.loadInit_crc, crcOut_canonical s.loadInit_crc⟩
  · rw [← romWord_eq_genWord]; exact ⟨rfl, rfl⟩

theorem readable_reset : Readable State.reset := ⟨rfl, rfl⟩

/-- Settles O25: reset holds the canonical pair with a clear mark, which reads as the pair's join. -/
theorem resetIsReadable : Obligations.ResetIsReadable := by
  unfold Obligations.ResetIsReadable
  refine ⟨readable_reset, ?_⟩
  rw [← initPair_join]
  exact readR_valued rfl rfl

end Sys2Proof.Machine
end

section
/-! Proofs of the family 20_memory.md. First the rules on the ROM read and on the linearity of the table, then the three
obligations they settle. -/

namespace Sys2Proof.Machine

/-! ## The split of a ROM word and the read that joins it -/

/-- A ROM read gives back the word the two tables split. -/
theorem memRead_eq_romWord (i : Byte) : memRead i = romWord i := by
  unfold memRead tableLo tableHi
  rw [BitVec.extractLsb'_append_extractLsb'_eq_extractLsb' (by decide), BitVec.extractLsb'_eq_self]

/-! ## Linearity of the ROM: the table inherits it from the bit steps that generate it -/

theorem zext16_xor (a b : Byte) : zext16 (a ^^^ b) = zext16 a ^^^ zext16 b := BitVec.setWidth_xor

theorem genWord_xor (a b : Byte) : genWord (a ^^^ b) = genWord a ^^^ genWord b := by
  simp only [genWord, zext16_xor, bitSteps_xor]

theorem romWord_xor (a b : Byte) : romWord (a ^^^ b) = romWord a ^^^ romWord b := by
  simp only [romWord_eq_genWord, genWord_xor]

theorem tableLo_xor (a b : Byte) : tableLo (a ^^^ b) = tableLo a ^^^ tableLo b := by
  simp only [tableLo, romWord_xor, BitVec.extractLsb'_xor]

/-! ## The values of the two tables -/

/-- The kernel of the linear map TableLo is trivial: only entry 0 is zero. -/
theorem eq_zero_of_tableLo_eq_zero (i : Byte) (h : tableLo i = 0x00#8) : i = 0x00#8 := by
  revert i; decide

theorem tableLo_injective : Function.Injective tableLo := by
  intro a b h
  have hzero : tableLo (a ^^^ b) = 0x00#8 := by rw [tableLo_xor, h, BitVec.xor_self]
  exact BitVec.xor_eq_zero_iff.mp (eq_zero_of_tableLo_eq_zero _ hzero)

theorem tableLo_bijective : Function.Bijective tableLo := Finite.injective_iff_bijective.mp tableLo_injective

theorem romWord_injective : Function.Injective romWord := fun _ _ h =>
  tableLo_injective (congrArg (BitVec.extractLsb' 8 8) h)

/-- The values TableHi takes, in the order of R47. -/
def tableHiValues : List Byte := [0x00#8, 0x01#8, 0x40#8, 0x41#8, 0x80#8, 0x81#8, 0xC0#8, 0xC1#8]

theorem tableHi_mem_values (i : Byte) : tableHi i ∈ tableHiValues := by
  revert i; decide

/-- The first eight entries of TableHi, those R48 lists, already take all its values. -/
theorem map_tableHi_first_entries :
    [0x00#8, 0x04#8, 0x03#8, 0x07#8, 0x06#8, 0x02#8, 0x05#8, 0x01#8].map tableHi = tableHiValues := by decide

theorem exists_tableHi_eq_iff (v : Byte) : (∃ i, tableHi i = v) ↔ v ∈ tableHiValues := by
  constructor
  · rintro ⟨i, rfl⟩
    exact tableHi_mem_values i
  · intro hv
    rw [← map_tableHi_first_entries] at hv
    obtain ⟨i, -, hi⟩ := List.mem_map.mp hv
    exact ⟨i, hi⟩

/-! ## The obligations -/

/-- Settles O3: the entries are read off the table; linearity comes from the bit steps, and with TableLo's trivial
kernel it makes TableLo a bijection and the words distinct. -/
theorem romHasListedProperties : Obligations.RomHasListedProperties := by
  unfold Obligations.RomHasListedProperties
  refine ⟨⟨rfl, rfl, rfl⟩, ⟨rfl, rfl, rfl⟩, ⟨rfl, rfl, rfl, rfl, rfl, rfl⟩, romWord_xor,
    exists_tableHi_eq_iff, ?_, romWord_injective⟩
  exact tableLo_bijective.existsUnique

/-- Settles O1: each printed word is the generated one. -/
theorem romWordsAreGenerated : Obligations.RomWordsAreGenerated := by
  unfold Obligations.RomWordsAreGenerated
  exact romWord_eq_genWord

/-- Settles O2: the tables split the printed word, which is the generated one; the two check values are closed folds
over the table. -/
theorem romSplitsGeneratedWord : Obligations.RomSplitsGeneratedWord := by
  unfold Obligations.RomSplitsGeneratedWord
  refine ⟨fun i => ?_, by decide, by decide⟩
  rw [← romWord_eq_genWord]
  exact ⟨rfl, rfl, rfl, memRead_eq_romWord i⟩

end Sys2Proof.Machine
end

section
/-! Proofs of the family 30_encoding.md. First the rules on the decoder and encoder, the opcode table, the refusals of an
edge, runs of the assembler's lines and the assembler's text, each followed by the obligations it settles. -/

namespace Sys2Proof.Machine

/-! ## The command a word decodes to -/

/-- The command of a word, by its op field: UPDATE and the reserved op carry the byte field. -/
theorem decode_cases (w : CmdWord) :
    (opField w = 0b00#2 ∧ decode w = .idle) ∨ (opField w = 0b01#2 ∧ decode w = .init) ∨
      (opField w = 0b10#2 ∧ decode w = .update (byteField w)) ∨
      (opField w = 0b11#2 ∧ decode w = .reserved (byteField w)) := by
  obtain h | h | h | h := cmdOp_cases (opField w) <;> simp [decode, h]

/-- Decoding gives the op field back, with the op values of R62. -/
theorem op_decode (w : CmdWord) : (decode w).op = opField w := by
  obtain ⟨hop, hd⟩ | ⟨hop, hd⟩ | ⟨hop, hd⟩ | ⟨hop, hd⟩ := decode_cases w <;> rw [hop, hd] <;> rfl

/-- A word is the join of its fields as a number too (R60). -/
theorem toNat_eq_fields (w : CmdWord) : w.toNat = (opField w).toNat * 256 + (byteField w).toNat := by
  have h : (joinFields (opField w) (byteField w)).toNat = (opField w).toNat * 2 ^ 8 + (byteField w).toNat := by
    rw [joinFields, BitVec.toNat_append, Nat.shiftLeft_eq, Nat.mul_comm,
      ← Nat.two_pow_add_eq_or_of_lt (byteField w).isLt]
  rwa [joinFields_fields] at h

/-- Decoding undoes encoding: the canonical word carries the command's op and, where it has one, its operand. -/
theorem decode_encode (i : Instr) : decode (encode i) = i := by
  cases i with
  | idle => exact decode_portWord_idle 0x00#8
  | init => exact decode_portWord_init 0x00#8
  | update b => exact decode_portWord_update b
  | reserved b => exact decode_portWord_reserved b

/-- Encoding what a word decodes to gives the word back where the command keeps the byte field. -/
theorem encode_decode {w : CmdWord} (h : (decode w).canonicalByte = byteField w) : encode (decode w) = w := by
  rw [encode, op_decode, h, joinFields_fields]

/-- UPDATE and the reserved op keep the byte field. -/
theorem canonicalByte_decode {w : CmdWord} {b : Byte} (h : decode w = .update b ∨ decode w = .reserved b) :
    (decode w).canonicalByte = byteField w := by
  obtain ⟨-, hd⟩ | ⟨-, hd⟩ | ⟨-, hd⟩ | ⟨-, hd⟩ := decode_cases w
  · simp [hd] at h
  · simp [hd] at h
  · rw [hd]; rfl
  · rw [hd]; rfl

theorem decodeNumber_toNat (w : CmdWord) : decodeNumber w.toNat = .ok (decode w) := by
  rw [decodeNumber, if_pos w.isLt, BitVec.ofNat_toNat, BitVec.setWidth_eq]

theorem decodeNumber_tooWide {n : Nat} (h : 1024 ≤ n) : decodeNumber n = .error .notTenBits :=
  if_neg (Nat.not_lt.mpr h)

/-- A command word given in at least ten bits decodes as the word it is. -/
theorem decodeTableWord_toNat (w : CmdWord) {n : Nat} (hn : 10 ≤ n) :
    decodeTableWord n w.toNat = some (decode w) := by
  have hlt : w.toNat < 2 ^ n := w.isLt.trans_le (Nat.pow_le_pow_right (by decide) hn)
  rw [decodeTableWord, Nat.mod_eq_of_lt hlt, decodeNumber_toNat]

/-- Settles O5: the fields of the canonical word are the command's, and a command that keeps the byte field keeps the
whole word. -/
theorem decodeEncodeAgree : Obligations.DecodeEncodeAgree := by
  unfold Obligations.DecodeEncodeAgree
  refine ⟨decode_encode, fun i n hn => ?_, fun w b h => encode_decode (canonicalByte_decode h),
    fun w h => ?_, fun w h => ?_⟩
  · rw [decodeTableWord_toNat (encode i) hn, decode_encode]
  · rw [h]; rfl
  · rw [h]; rfl

/-- Settles O4: the decoder's four cases, and each word as the join of its fields. -/
theorem decodeFollowsOpField : Obligations.DecodeFollowsOpField := by
  unfold Obligations.DecodeFollowsOpField
  exact ⟨fun b => ⟨decode_portWord_idle b, decode_portWord_init b, decode_portWord_update b,
    decode_portWord_reserved b⟩, fun w => ⟨joinFields_fields w, toNat_eq_fields w⟩⟩

/-- Settles O7: each written word is the join of an op and a byte field. -/
theorem writtenWordsDecode : Obligations.WrittenWordsDecode := by
  unfold Obligations.WrittenWordsDecode
  exact ⟨decode_portWord_idle 0x00#8, decode_portWord_idle 0xFF#8, decode_portWord_init 0x00#8,
    decode_portWord_init 0xA5#8, decode_portWord_update 0x01#8, decode_portWord_update 0xC4#8,
    decode_portWord_update 0xFF#8, decode_portWord_reserved 0xA5#8⟩

/-- Settles O8: ten bits hold exactly the numbers below 1024. -/
theorem onlyTenBitNumbersDecode : Obligations.OnlyTenBitNumbersDecode := by
  unfold Obligations.OnlyTenBitNumbersDecode
  exact ⟨fun n hn => decodeNumber_tooWide hn, decodeNumber_toNat⟩

/-! ## The opcode table -/

/-- The mask of every row keeps the op field and clears the byte field. -/
theorem and_rowMask (w : CmdWord) : w &&& 0x300#10 = joinFields (opField w) 0x00#8 := by
  calc w &&& 0x300#10 = joinFields (opField w) (byteField w) &&& joinFields 0b11#2 0x00#8 := by
        rw [joinFields_fields]; rfl
    _ = joinFields (opField w &&& 0b11#2) (byteField w &&& 0x00#8) := BitVec.and_append
    _ = joinFields (opField w) 0x00#8 := congrArg₂ joinFields BitVec.and_allOnes BitVec.and_zero

/-- Settles O6: a masked word is its op field, which meets the pattern of one row, that of the command. -/
theorem opcodeTableAgreesWithDecoder : Obligations.OpcodeTableAgreesWithDecoder := by
  unfold Obligations.OpcodeTableAgreesWithDecoder
  intro w
  simp only [opcodeRows, OpcodeRow.matchesWord, List.filter_cons, List.filter_nil, and_rowMask]
  obtain ⟨hop, hd⟩ | ⟨hop, hd⟩ | ⟨hop, hd⟩ | ⟨hop, hd⟩ := decode_cases w <;> rw [hop, hd] <;> rfl

/-! ## Refusals -/

theorem clockEdge_reserved (byte : Byte) (s : State) :
    clockEdge (.levels false 0b11#2 byte) s = .refused .reservedOp := by
  change exec (decode (portWord 0b11#2 byte)) s = _
  rw [decode_portWord_reserved]; rfl

/-- The reserved op is the only op whose command is refused. -/
theorem exec_portWord_refused {op : CmdOp} {byte : Byte} {s : State} {r : Refusal}
    (h : exec (decode (portWord op byte)) s = .refused r) : op = 0b11#2 ∧ r = .reservedOp := by
  obtain ⟨⟨b, hb⟩, hr⟩ := exec_refused h
  have hop : (decode (portWord op byte)).op = op := by rw [op_decode, portWord, opField_joinFields]
  rw [hb] at hop
  exact ⟨hop.symm, hr⟩

/-- When an edge is refused. -/
theorem clockEdge_refused_iff {d : Drive} {s : State} {r : Refusal} : clockEdge d s = .refused r ↔
    (d = .undefinedLevels ∧ r = .undefinedInput) ∨ ∃ b, d = .levels false 0b11#2 b ∧ r = .reservedOp := by
  constructor
  · intro h
    match d, h with
    | .undefinedLevels, h => cases h; exact .inl ⟨rfl, rfl⟩
    | .levels true _ _, h => cases h
    | .levels false op byte, h =>
      obtain ⟨rfl, rfl⟩ := exec_portWord_refused h
      exact .inr ⟨byte, rfl, rfl⟩
  · rintro (⟨rfl, rfl⟩ | ⟨b, rfl, rfl⟩)
    · rfl
    · exact clockEdge_reserved b s

/-- Settles O20: a set mark is refused at once; with a clear mark a stopped clock goes on, and an edge is refused for
its levels alone. -/
theorem refusalCauses : Obligations.RefusalCauses := by
  unfold Obligations.RefusalCauses
  intro s r
  cases hr : s.refused with
  | true => simp [step_marked hr, eq_comm]
  | false =>
    cases hi : s.inputs with
    | nil => simp [step_stopped hr hi]
    | cons d ds => simp [step_edge hr hi, clockEdge_refused_iff]

/-! ## Runs of the assembler's lines -/

theorem clockEdge_ofInstr (i : Instr) (s : State) : clockEdge (Drive.ofInstr i) s = exec i s := by
  change exec (decode (portWord (opField (encode i)) (byteField (encode i)))) s = exec i s
  rw [portWord_fields, decode_encode]

/-- What a line does to the register. -/
def Line.effect (c : Option CrcPair) : Line → Option CrcPair
  | .idle => c
  | .init => some initPair
  | .update b => c.map fun p => upd p b
  | .reset => some initPair

/-- A line's edge goes on from every state, and only its effect on the register happens. -/
theorem clockEdge_line (l : Line) (s : State) : clockEdge l.drive s = .next { s with crc := l.effect s.crc } := by
  cases l with
  | idle => exact clockEdge_ofInstr .idle s
  | init => exact clockEdge_ofInstr .init s
  | update b => exact clockEdge_ofInstr (.update b) s
  | reset => exact clockEdge_rst _ _ s

/-- Driving lines completes, and folds their effects over the register. -/
theorem feed_lines (ls : List Line) {s : State} (hr : s.refused = false) :
    feed (ls.map Line.drive) s = .next { crc := ls.foldl Line.effect s.crc, refused := false, inputs := [] } := by
  induction ls generalizing s with
  | nil => rw [← hr]; rfl
  | cons l ls ih =>
    rw [List.map_cons, feed_cons hr, clockEdge_line]
    exact ih (s := { s with crc := l.effect s.crc }) hr

theorem foldl_effect_updates (p : CrcPair) (seq : List Byte) :
    (seq.map Line.update).foldl Line.effect (some p) = some (foldUpd p seq) := by
  induction seq generalizing p with
  | nil => rfl
  | cons b seq ih => exact ih (upd p b)

/-- CALC folds its bytes from the canonical pair, whatever the register held. -/
theorem foldl_effect_calcLines (c : Option CrcPair) (seq : List Byte) :
    (calcLines seq).foldl Line.effect c = some (foldUpd initPair seq) :=
  foldl_effect_updates initPair seq

/-- Each copy of CALC starts afresh, so the last one decides. -/
theorem foldl_effect_benchLines {n : Nat} (hn : 1 ≤ n) (c : Option CrcPair) (seq : List Byte) :
    (benchLines n seq).foldl Line.effect c = some (foldUpd initPair seq) := by
  induction n, hn using Nat.le_induction generalizing c with
  | base => rw [benchLines, benchLines, List.append_nil, foldl_effect_calcLines]
  | succ n hn ih => rw [benchLines, List.foldl_append, ih]

/-- Lines whose effects end in the pair of `crc seq` leave `crc seq` on `crc_out`. -/
theorem feed_lines_crcOut {ls : List Line} {seq : List Byte} {s : State} (hr : s.refused = false)
    (hls : ls.foldl Line.effect s.crc = some (foldUpd initPair seq)) :
    ∃ t, feed (ls.map Line.drive) s = .next t ∧ t.crcOut = some (crc seq) :=
  ⟨_, feed_lines ls hr, crcOut_valued hls⟩

/-! ## CALC and BENCH -/

theorem expand_calc_ok {seq : List Byte} {ls : List Line} (h : (Stmt.calc seq).expand = .ok ls) :
    ls = calcLines seq := by
  simp only [Stmt.expand] at h
  split at h
  · cases h; rfl
  · cases h

/-- Settles O36: the bound decides the expansion, whose effects fold the bytes from the canonical pair. -/
theorem calcExpands : Obligations.CalcExpands := by
  unfold Obligations.CalcExpands
  refine fun seq => ⟨fun h => if_pos h, fun h => if_neg (Nat.not_le.mpr h), fun s ls hr h => ?_⟩
  rw [expand_calc_ok h]
  exact feed_lines_crcOut hr (foldl_effect_calcLines s.crc seq)

theorem benchLines_eq_flatten (n : Nat) (seq : List Byte) :
    benchLines n seq = (List.replicate n (calcLines seq)).flatten := by
  induction n with
  | zero => rfl
  | succ n ih => rw [benchLines, ih, List.replicate_succ, List.flatten_cons]

theorem expand_bench_inRange {n : Nat} {seq : List Byte} (h1 : 1 ≤ n) (hn : n ≤ Config.maxIterations)
    (hlen : seq.length ≤ Config.maxLen) : (Stmt.bench n seq).expand = .ok (benchLines n seq) := by
  rw [Stmt.expand, if_neg (by omega), if_pos hlen]

theorem expand_bench_outOfRange {n : Nat} (seq : List Byte) (h : n = 0 ∨ Config.maxIterations < n) :
    (Stmt.bench n seq).expand = .error .iterationsOutOfRange := by
  rw [Stmt.expand, if_pos (by omega)]

theorem expand_bench_ok {n : Nat} {seq : List Byte} {ls : List Line} (h : (Stmt.bench n seq).expand = .ok ls) :
    1 ≤ n ∧ ls = benchLines n seq := by
  simp only [Stmt.expand] at h
  split at h
  · cases h
  · rename_i hrange
    split at h
    · cases h; exact ⟨by omega, rfl⟩
    · cases h

/-- Settles O37: the bounds decide the expansion, and the last of its copies of CALC decides the register. -/
theorem benchExpands : Obligations.BenchExpands := by
  unfold Obligations.BenchExpands
  refine fun n seq => ⟨fun h1 hn hlen => ?_, fun h => expand_bench_outOfRange seq h, fun s ls hr h => ?_⟩
  · rw [expand_bench_inRange h1 hn hlen, benchLines_eq_flatten]
  · obtain ⟨hn, rfl⟩ := expand_bench_ok h
    exact feed_lines_crcOut hr (foldl_effect_benchLines hn s.crc seq)

/-! ## Hex digits in assembler text -/

theorem hexDigit_hexChar (v : BitVec 4) : hexDigit (hexChar v) = some v := by
  revert v; decide

/-- The two digits of a byte read back as that byte. -/
theorem hexByte_hexOfByte (b : Byte) : hexByte (hexOfByte b) = some b := by
  simp only [hexByte, hexOfByte, hexDigit_hexChar]
  rw [BitVec.extractLsb'_append_extractLsb'_eq_extractLsb' (by decide), BitVec.extractLsb'_eq_self]

/-- A character with a role of its own in a line of text: a blank, a comma, or the end of a label or the start of a
comment (R69). -/
def isSeparator (c : Char) : Bool := isBlank c || c.toNat == 44 || c.toNat == 58 || c.toNat == 59

theorem isSeparator_hexChar (v : BitVec 4) : isSeparator (hexChar v) = false := by
  revert v; decide

theorem isSeparator_of_mem_hexOfByte {b : Byte} {c : Char} (hc : c ∈ hexOfByte b) : isSeparator c = false := by
  obtain rfl | rfl : c = hexChar (b.extractLsb' 4 4) ∨ c = hexChar (b.extractLsb' 0 4) := by
    simpa [hexOfByte] using hc
  · exact isSeparator_hexChar _
  · exact isSeparator_hexChar _

section NoSeparator

variable {c : Char} (h : isSeparator c = false)

include h

theorem isBlank_of_isSeparator_eq_false : isBlank c = false := by simp_all [isSeparator]

theorem ne_comma_of_isSeparator_eq_false : c.toNat ≠ 44 := by simp_all [isSeparator]

theorem ne_colon_of_isSeparator_eq_false : c.toNat ≠ 58 := by simp_all [isSeparator]

theorem ne_semicolon_of_isSeparator_eq_false : c.toNat ≠ 59 := by simp_all [isSeparator]

end NoSeparator

/-! ## Cutting a line of text -/

theorem dropComment_append {cs : List Char} (h : ∀ c ∈ cs, c.toNat ≠ 59) (rest : List Char) :
    dropComment (cs ++ ';' :: rest) = cs := by
  rw [dropComment, List.takeWhile_append_of_pos (by simpa using h)]
  simp

theorem dropComment_eq_self {cs : List Char} (h : ∀ c ∈ cs, c.toNat ≠ 59) : dropComment cs = cs :=
  List.takeWhile_eq_self_iff.mpr (by simpa using h)

theorem dropLabel_append {cs : List Char} (h : ∀ c ∈ cs, c.toNat ≠ 58) (rest : List Char) :
    dropLabel (cs ++ ':' :: rest) = rest := by
  rw [dropLabel, List.dropWhile_append_of_pos (by simpa using h)]
  simp

theorem dropLabel_eq_self {cs : List Char} (h : ∀ c ∈ cs, c.toNat ≠ 58) : dropLabel cs = cs := by
  rw [dropLabel, List.dropWhile_eq_nil_iff.mpr (by simpa using h)]

theorem dropWhile_isBlank_append {xs cs : List Char} (hxs : ∀ c ∈ xs, isBlank c = true) (h0 : cs ≠ [])
    (hcs : isBlank (cs.head h0) = false) (ys : List Char) : (xs ++ (cs ++ ys)).dropWhile isBlank = cs ++ ys := by
  rw [List.dropWhile_append_of_pos hxs]
  cases cs with
  | nil => contradiction
  | cons c cs => exact List.dropWhile_cons_of_neg (by simpa using hcs)

/-- Blanks around a text that begins and ends with other characters are trimmed, and nothing else is. -/
theorem trimBlanks_append {xs cs ys : List Char} (hxs : ∀ c ∈ xs, isBlank c = true)
    (hys : ∀ c ∈ ys, isBlank c = true) (h0 : cs ≠ []) (hhead : isBlank (cs.head h0) = false)
    (hlast : isBlank (cs.getLast h0) = false) : trimBlanks (xs ++ (cs ++ ys)) = cs := by
  have hrev : isBlank (cs.reverse.head (by simpa using h0)) = false := by rwa [List.head_reverse]
  have hback := dropWhile_isBlank_append (xs := ys.reverse) (by simpa using hys) _ hrev []
  rw [List.append_nil] at hback
  rw [trimBlanks, dropWhile_isBlank_append hxs h0 hhead, List.reverse_append, hback, List.reverse_reverse]

theorem splitCommas_eq_singleton {cs : List Char} (h : ∀ c ∈ cs, c.toNat ≠ 44) : splitCommas cs = [cs] := by
  induction cs with
  | nil => rfl
  | cons c cs ih =>
    obtain ⟨hc, hcs⟩ := List.forall_mem_cons.mp h
    simp [splitCommas, hc, ih hcs]

/-! ## A statement with one operand -/

section OneOperand

variable {m op : List Char} (hm0 : m ≠ []) (hm : ∀ c ∈ m, isSeparator c = false) (hop0 : op ≠ [])
  (hop : ∀ c ∈ op, isSeparator c = false)

include hop0 hop in
/-- An operand without separators is the one operand, whatever blanks stand before it. -/
theorem operandTexts_append {xs : List Char} (hxs : ∀ c ∈ xs, isBlank c = true) :
    operandTexts (xs ++ op) = [op] := by
  have hblank (c) (hc : c ∈ op) : isBlank c = false := isBlank_of_isSeparator_eq_false (hop c hc)
  have htrim {zs : List Char} (hzs : ∀ c ∈ zs, isBlank c = true) : trimBlanks (zs ++ op) = op := by
    simpa using trimBlanks_append (ys := []) hzs (by simp) hop0 (hblank _ (op.head_mem hop0))
      (hblank _ (op.getLast_mem hop0))
  have hsplit : splitCommas op = [op] :=
    splitCommas_eq_singleton fun c hc => ne_comma_of_isSeparator_eq_false (hop c hc)
  rw [operandTexts, htrim hxs]
  cases op with
  | nil => contradiction
  | cons c cs => simpa [hsplit] using htrim (zs := []) (by simp)

include hm hop in
/-- Inside the statement stands neither the end of a label nor the start of a comment. -/
theorem toNat_ne_of_mem_statement {c : Char} (hc : c ∈ m ++ ' ' :: op) : c.toNat ≠ 58 ∧ c.toNat ≠ 59 := by
  obtain hc | rfl | hc : c ∈ m ∨ c = ' ' ∨ c ∈ op := by simpa using hc
  · exact ⟨ne_colon_of_isSeparator_eq_false (hm c hc), ne_semicolon_of_isSeparator_eq_false (hm c hc)⟩
  · decide
  · exact ⟨ne_colon_of_isSeparator_eq_false (hop c hc), ne_semicolon_of_isSeparator_eq_false (hop c hc)⟩

include hm hop0 hop in
/-- A line is read by its body: the mnemonic before the first blank, the operand after it. -/
theorem readStmt_of_body {text : List Char}
    (hbody : trimBlanks (dropLabel (dropComment text)) = m ++ ' ' :: op) :
    readStmt text = stmtOf (m.map upperChar) [op] := by
  have hm' : ∀ c ∈ m, (!isBlank c) = true := fun c hc => by simp [isBlank_of_isSeparator_eq_false (hm c hc)]
  have htake : (m ++ ' ' :: op).takeWhile (fun c => !isBlank c) = m := by
    rw [List.takeWhile_append_of_pos hm']; simp [isBlank]
  have hdrop : (m ++ ' ' :: op).dropWhile (fun c => !isBlank c) = [' '] ++ op := by
    rw [List.dropWhile_append_of_pos hm']; simp [isBlank]
  simp only [readStmt, hbody, htake, hdrop]
  rw [operandTexts_append hop0 hop (by simp [isBlank])]

include hm0 hm hop0 hop

theorem trimBlanks_statement {xs ys : List Char} (hxs : ∀ c ∈ xs, isBlank c = true)
    (hys : ∀ c ∈ ys, isBlank c = true) : trimBlanks (xs ++ ((m ++ ' ' :: op) ++ ys)) = m ++ ' ' :: op := by
  have hhead : isBlank (m.head hm0) = false := isBlank_of_isSeparator_eq_false (hm _ (m.head_mem hm0))
  have hlast : isBlank (op.getLast hop0) = false := isBlank_of_isSeparator_eq_false (hop _ (op.getLast_mem hop0))
  refine trimBlanks_append hxs hys (by simp) ?_ ?_
  · rwa [List.head_append_of_ne_nil hm0]
  · rwa [List.getLast_append_of_ne_nil (by simp) (by simp), List.getLast_cons hop0]

theorem readStmt_statement : readStmt (m ++ ' ' :: op) = stmtOf (m.map upperChar) [op] := by
  have hmarks {c : Char} := toNat_ne_of_mem_statement hm hop (c := c)
  have htrim : trimBlanks (m ++ ' ' :: op) = m ++ ' ' :: op := by
    simpa using trimBlanks_statement hm0 hm hop0 hop (xs := []) (ys := []) (by simp) (by simp)
  apply readStmt_of_body hm hop0 hop
  rw [dropComment_eq_self fun c hc => (hmarks hc).2, dropLabel_eq_self fun c hc => (hmarks hc).1, htrim]

/-- A label, a comment and the blanks around a statement do not change how it is read. -/
theorem readStmt_labelled_commented {label xs ys : List Char} (hlabel : ∀ c ∈ label, isSeparator c = false)
    (hxs : ∀ c ∈ xs, isBlank c = true) (hys : ∀ c ∈ ys, isBlank c = true) (comment : List Char) :
    readStmt ((label ++ ':' :: (xs ++ ((m ++ ' ' :: op) ++ ys))) ++ ';' :: comment) =
      stmtOf (m.map upperChar) [op] := by
  have hne {c : Char} (hc : isBlank c = true) : c.toNat ≠ 59 := by
    intro h; simp [isBlank, h] at hc
  have hcomment : ∀ c ∈ label ++ ':' :: (xs ++ ((m ++ ' ' :: op) ++ ys)), c.toNat ≠ 59 := by
    refine List.forall_mem_append.mpr ⟨fun c hc => ne_semicolon_of_isSeparator_eq_false (hlabel c hc),
      List.forall_mem_cons.mpr ⟨by decide, List.forall_mem_append.mpr ⟨fun c hc => hne (hxs c hc),
        List.forall_mem_append.mpr ⟨fun c hc => (toNat_ne_of_mem_statement hm hop hc).2,
          fun c hc => hne (hys c hc)⟩⟩⟩⟩
  apply readStmt_of_body hm hop0 hop
  rw [dropComment_append hcomment, dropLabel_append fun c hc => ne_colon_of_isSeparator_eq_false (hlabel c hc)]
  exact trimBlanks_statement hm0 hm hop0 hop hxs hys

end OneOperand

/-- A line read as the mnemonic UPDATE, in either case, with one readable byte assembles to that UPDATE. -/
theorem assembleLine_update {text m op : List Char} {b : Byte}
    (hread : readStmt text = stmtOf (m.map upperChar) [op])
    (hm : m.map upperChar = ['U', 'P', 'D', 'A', 'T', 'E']) (hop : asmByte op = some b) :
    assembleLine text = .ok [.update b] := by
  rw [assembleLine, hread, hm]
  simp [stmtOf, readAll, hop, Stmt.expand]

theorem asmByte_hexOfByte (b : Byte) : asmByte (hexOfByte b) = some b := hexByte_hexOfByte b

theorem asmByte_prefixed_hexOfByte (b : Byte) : asmByte ('0' :: 'x' :: hexOfByte b) = some b := hexByte_hexOfByte b

/-- Settles O38: each text is a statement, bare or between a label and a comment, whose operand has no separator. -/
theorem updateTextAssembles : Obligations.UpdateTextAssembles := by
  unfold Obligations.UpdateTextAssembles
  intro b
  have hdigits : ∀ c ∈ hexOfByte b, isSeparator c = false := fun c hc => isSeparator_of_mem_hexOfByte hc
  have hprefixed : ∀ c ∈ '0' :: 'x' :: hexOfByte b, isSeparator c = false :=
    List.forall_mem_cons.mpr ⟨by decide, List.forall_mem_cons.mpr ⟨by decide, hdigits⟩⟩
  have hupper : ∀ c ∈ ['U', 'P', 'D', 'A', 'T', 'E'], isSeparator c = false := by simp [isSeparator, isBlank]
  have hlower : ∀ c ∈ ['u', 'p', 'd', 'a', 't', 'e'], isSeparator c = false := by simp [isSeparator, isBlank]
  have hmixed : ∀ c ∈ ['U', 'p', 'd', 'a', 't', 'e'], isSeparator c = false := by simp [isSeparator, isBlank]
  have hlabel : ∀ c ∈ ['a'], isSeparator c = false := by simp [isSeparator, isBlank]
  have hspace : ∀ c ∈ [' '], isBlank c = true := by simp [isBlank]
  have hne : hexOfByte b ≠ [] := List.cons_ne_nil _ _
  have hreadBare := readStmt_statement (by simp) hupper hne hdigits
  have hreadPrefixed := readStmt_statement (by simp) hlower (by simp) hprefixed
  have hreadLabelled := readStmt_labelled_commented (by simp) hmixed hne hdigits hlabel hspace hspace ['c']
  exact ⟨assembleLine_update hreadBare (by decide) (asmByte_hexOfByte b),
    assembleLine_update hreadPrefixed (by decide) (asmByte_prefixed_hexOfByte b),
    assembleLine_update hreadLabelled (by decide) (asmByte_hexOfByte b)⟩

end Sys2Proof.Machine
end

section
/-! Proofs of the family 41_engine_commands.md. First the rules on the register as a word, the edges of the three commands,
runs with IDLE cycles among them, and the bit-serial register, each followed by the obligations it settles. -/

namespace Sys2Proof.Machine

open Sys2Proof.Safety

/-! ## The register as a word -/

theorem append_eq_shiftLeft_or (hi lo : Byte) : hi ++ lo = zext16 hi <<< 8 ||| zext16 lo := by
  have h : (hi ++ lo).setWidth 16 = hi.setWidth 16 <<< 8 ||| lo.setWidth 16 :=
    BitVec.setWidth_append_eq_shiftLeft_setWidth_or
  rwa [BitVec.setWidth_eq] at h

theorem toNat_append_byte (hi lo : Byte) : (hi ++ lo).toNat = hi.toNat * 256 + lo.toNat := by
  rw [BitVec.toNat_append, Nat.shiftLeft_eq, Nat.mul_comm, ← Nat.two_pow_add_eq_or_of_lt lo.isLt, Nat.mul_comm]

/-- The two halves are read back off the joined word. -/
theorem eq_of_join_eq_append {p : CrcPair} {h l : Byte} (hp : p.join = h ++ l) : p = ⟨h, l⟩ := by
  obtain ⟨hi, lo⟩ := p
  have hhi : hi = h := by
    simpa only [CrcPair.join, BitVec.extractLsb'_append_eq_left] using congrArg (BitVec.extractLsb' 8 8) hp
  have hlo : lo = l := by
    simpa only [CrcPair.join, BitVec.extractLsb'_append_eq_right] using congrArg (BitVec.extractLsb' 0 8) hp
  rw [hhi, hlo]

theorem readR_unvalued {s : State} (hr : s.refused = false) (hc : s.crc = none) : s.readR = .fault .unvaluedRead := by
  simp [State.readR, State.crcOut, hr, hc]

/-- Settles O22: a read gives the join of the halves, which is the shifted form and the sum, and faults without a value. -/
theorem readGivesRegister : Obligations.ReadGivesRegister := by
  unfold Obligations.ReadGivesRegister
  refine ⟨fun s hi lo hr hc => ?_, fun s hr hc => readR_unvalued hr hc⟩
  have hread : s.readR = .next (hi ++ lo) := readR_valued (p := ⟨hi, lo⟩) hr hc
  exact ⟨hread, by rw [hread, append_eq_shiftLeft_or], toNat_append_byte hi lo⟩

/-! ## The three commands, executed -/

@[simp] theorem exec_idle (s : State) : exec .idle s = .next s := rfl

@[simp] theorem exec_init (s : State) : exec .init s = .next s.loadInit := rfl

@[simp] theorem exec_update (b : Byte) (s : State) : exec (.update b) s = .next (s.consume b) := rfl

theorem consume_unvalued (b : Byte) {s : State} (hc : s.crc = none) : s.consume b = s := by
  obtain ⟨_, _, _⟩ := s
  cases hc
  rfl

theorem consume_valued (b : Byte) {s : State} {p : CrcPair} (hc : s.crc = some p) :
    s.consume b = { s with crc := some (upd p b) } := by
  rw [State.consume, hc]; rfl

theorem exec_update_valued (b : Byte) {s : State} {p : CrcPair} (hc : s.crc = some p) :
    exec (.update b) s = .next { s with crc := some (upd p b) } := by
  rw [exec_update, consume_valued b hc]

/-- Loading the canonical pair twice is loading it once. -/
theorem loadInit_loadInit (s : State) : s.loadInit.loadInit = s.loadInit := rfl

/-- Settles O10: INIT and an `rst` edge load the canonical pair, and loading it again changes nothing. -/
theorem initLoadsCanonicalPair : Obligations.InitLoadsCanonicalPair := by
  unfold Obligations.InitLoadsCanonicalPair
  refine ⟨exec_init, decode_portWord_init, rfl, fun s t h => ?_, fun s op byte => clockEdge_rst op byte s⟩
  cases h
  exact ⟨by rw [exec_init, loadInit_loadInit], crcOut_canonical s.loadInit_crc⟩

/-! ## The update rule at single indexes -/

/-- Index 0, where the byte is `hi` itself: the entry is zero, so `lo` moves up. -/
theorem upd_hi (hi lo : Byte) : upd ⟨hi, lo⟩ hi = ⟨lo, 0x00#8⟩ := by
  have htableHi : tableHi 0x00#8 = 0x00#8 := by decide
  have htableLo : tableLo 0x00#8 = 0x00#8 := by decide
  simp [upd, htableHi, htableLo]

/-- Index 0xFF, where the byte is the complement of `hi`. -/
theorem upd_complement_hi (hi lo : Byte) : upd ⟨hi, lo⟩ (hi ^^^ 0xFF#8) = ⟨lo ^^^ 0x40#8, 0x40#8⟩ := by
  have hindex : hi ^^^ (hi ^^^ 0xFF#8) = 0xFF#8 := by rw [← BitVec.xor_assoc, BitVec.xor_self, BitVec.zero_xor]
  have htableHi : tableHi 0xFF#8 = 0x40#8 := by decide
  have htableLo : tableLo 0xFF#8 = 0x40#8 := by decide
  rw [upd, hindex, htableHi, htableLo]

theorem encode_update_toNat (b : Byte) : (encode (.update b)).toNat = 0x200 + b.toNat := by
  rw [toNat_eq_fields, encode, opField_joinFields, byteField_joinFields]
  simp [Instr.op, Instr.canonicalByte]

/-- Settles O11: UPDATE is `upd` on a valued register and nothing on an unvalued one; the corner cases are values of `upd`
at index 0, at index 0xFF and at closed pairs. -/
theorem updateConsumesOneByte : Obligations.UpdateConsumesOneByte := by
  unfold Obligations.UpdateConsumesOneByte
  refine ⟨fun s hi lo b hc => exec_update_valued b hc, fun s b hc => ?_,
    fun b => ⟨decode_portWord_update b, encode_update_toNat b⟩, fun s hi lo hc => ⟨?_, ?_⟩,
    fun s hc => ⟨?_, ?_⟩, fun s hr hc => ⟨_, exec_update_valued _ hc, ?_⟩⟩
  · rw [exec_update, consume_unvalued b hc]
  · rw [exec_update_valued _ hc, upd_hi]
  · rw [exec_update_valued _ hc, upd_complement_hi]
  · rw [exec_update_valued _ hc, upd_hi, ← hc]
  · have hupd : upd ⟨0x00#8, 0x00#8⟩ 0x01#8 = ⟨0xC1#8, 0xC0#8⟩ := by decide
    rw [exec_update_valued _ hc, hupd]
  · have hjoin : (upd ⟨0xFF#8, 0xFF#8⟩ 0x01#8).join = 0x7E80#16 := by decide
    rw [← hjoin]
    exact readR_valued hr rfl

/-- Settles O12: `upd` reads `lo` only to XOR it into the new `hi`, where the table entry cancels. -/
theorem oldLoReachesNewHiOnly : Obligations.OldLoReachesNewHiOnly := by
  unfold Obligations.OldLoReachesNewHiOnly
  intro s s' hi lo lo' b hc hc'
  refine ⟨s.consume b, s'.consume b, upd ⟨hi, lo⟩ b, upd ⟨hi, lo'⟩ b, exec_update b s, exec_update b s',
    by rw [consume_valued b hc], by rw [consume_valued b hc'], rfl, ?_⟩
  calc lo ^^^ tableHi (hi ^^^ b) ^^^ (lo' ^^^ tableHi (hi ^^^ b))
      = lo ^^^ lo' ^^^ (tableHi (hi ^^^ b) ^^^ tableHi (hi ^^^ b)) := by ac_rfl
    _ = lo ^^^ lo' := by rw [BitVec.xor_self, BitVec.xor_zero]

/-! ## One edge, by its op -/

@[simp] theorem clockEdge_idle (byte : Byte) (s : State) : clockEdge (.levels false 0b00#2 byte) s = .next s := by
  rw [clockEdge, decode_portWord_idle, exec_idle]

@[simp] theorem clockEdge_update (byte : Byte) (s : State) :
    clockEdge (.levels false 0b10#2 byte) s = .next (s.consume byte) := by
  rw [clockEdge, decode_portWord_update, exec_update]

theorem carryOn_refused {s : State} {r : Refusal} (h : step s = .refused r) : carryOn s = s.markRefused := by
  rw [carryOn, h]

/-- Settles O13: the edge is refused for its op, which an observer that goes on keeps as the mark; with `rst` the op is not
sampled. -/
theorem reservedIsRefused : Obligations.ReservedIsRefused := by
  unfold Obligations.ReservedIsRefused
  refine ⟨fun _ _ => rfl, decode_portWord_reserved, fun s b ds hr hi => ?_, fun s b ds hr hi => ?_⟩
  · have hstep : step s = .refused .reservedOp := by rw [step_edge hr hi, clockEdge_reserved]
    exact ⟨hstep, by rw [carryOn_refused hstep, State.markRefused_refused]⟩
  · exact ⟨(s.withInputs ds).loadInit, by rw [step_edge hr hi, clockEdge_rst], State.loadInit_crc _, hr⟩

/-- Settles O15: the step is the edge of the sampled levels, read off by `rst` and the op. -/
theorem nextStateByCases : Obligations.NextStateByCases := by
  unfold Obligations.NextStateByCases
  intro s rst op byte ds hr hi
  rw [step_edge hr hi]
  refine ⟨?_, ?_, ?_, ?_, ?_⟩
  · rintro rfl
    rw [clockEdge_rst, ← hr]; rfl
  · rintro rfl rfl
    rw [clockEdge_idle, ← hr]; rfl
  · rintro rfl rfl
    rw [clockEdge_init, ← hr]; rfl
  · rintro rfl rfl
    rw [clockEdge_update, ← hr]
    refine ⟨fun hc => ?_, fun hi lo hc => ?_⟩
    · rw [consume_unvalued byte (s := s.withInputs ds) hc, ← hc]; rfl
    · rw [consume_valued byte (s := s.withInputs ds) hc]; rfl
  · rintro rfl rfl
    exact clockEdge_reserved byte _

/-! ## Runs of edges, and the IDLE cycles among them -/

/-- A run is its first edge, then the run of the other levels: what was scheduled before plays no part. -/
theorem feed_cons_clockEdge {s : State} (hr : s.refused = false) (d : Drive) (ds : List Drive) :
    feed (d :: ds) s = match clockEdge d s with
      | .next t => feed ds t
      | .fault r => .fault r
      | .refused r => .refused r := by
  rw [feed_cons hr]
  match d with
  | .undefinedLevels => rfl
  | .levels true _ _ => rfl
  | .levels false op byte =>
    simp only [clockEdge]
    cases decode (portWord op byte) <;> rfl

theorem feed_cons_of_next {s t : State} {d : Drive} (hr : s.refused = false) (h : clockEdge d s = .next t)
    (ds : List Drive) : feed (d :: ds) s = feed ds t := by
  rw [feed_cons_clockEdge hr, h]

/-- Runs with one first edge agree where the runs after it do. -/
theorem feed_cons_congr {s : State} (hr : s.refused = false) (d : Drive) {ds es : List Drive}
    (h : ∀ t : State, t.refused = false → feed ds t = feed es t) : feed (d :: ds) s = feed (d :: es) s := by
  rw [feed_cons_clockEdge hr, feed_cons_clockEdge hr]
  cases hd : clockEdge d s with
  | next t => exact h t ((clockEdge_frame hd).1.trans hr)
  | fault r => rfl
  | refused r => rfl

/-- Of the levels at one edge, only those of IDLE are left out. -/
theorem withoutIdles_cons (d : Drive) (ds : List Drive) :
    (∃ byte, d = .levels false 0b00#2 byte ∧ withoutIdles (d :: ds) = withoutIdles ds) ∨
      withoutIdles (d :: ds) = d :: withoutIdles ds := by
  match d with
  | .undefinedLevels => exact .inr rfl
  | .levels true _ _ => exact .inr rfl
  | .levels false op byte =>
    obtain rfl | rfl | rfl | rfl := cmdOp_cases op
    · exact .inl ⟨byte, rfl, by simp [withoutIdles]⟩
    · exact .inr (by simp [withoutIdles])
    · exact .inr (by simp [withoutIdles])
    · exact .inr (by simp [withoutIdles])

/-- Leaving out the IDLE cycles does not change how a run ends (R138). -/
theorem feed_withoutIdles (ds : List Drive) {s : State} (hr : s.refused = false) :
    feed (withoutIdles ds) s = feed ds s := by
  induction ds generalizing s with
  | nil => rfl
  | cons d ds ih =>
    obtain ⟨byte, rfl, hds⟩ | hds := withoutIdles_cons d ds
    · rw [hds, feed_cons_of_next hr (clockEdge_idle byte s), ih hr]
    · rw [hds, feed_cons_congr hr d fun t ht => ih ht]

theorem feed_replicate_idle (n : Nat) {s : State} (hr : s.refused = false) :
    feed (List.replicate n (Drive.ofInstr .idle)) s = .next (s.withInputs []) := by
  induction n with
  | zero => rfl
  | succ n ih => rw [List.replicate_succ, feed_cons_of_next hr (clockEdge_ofInstr .idle s), ih]

/-- Settles O9: IDLE answers the state it is given, so any number of IDLE edges leaves the register and the mark. -/
theorem idleChangesNothing : Obligations.IdleChangesNothing := by
  unfold Obligations.IdleChangesNothing
  refine ⟨exec_idle, decode_portWord_idle, rfl, fun n s hr => feed_replicate_idle n hr, fun s hr hc => ?_⟩
  have hjoin : CrcPair.join ⟨0x37#8, 0x4B#8⟩ = 0x374B#16 := by decide
  exact ⟨s, exec_idle s, hjoin ▸ readR_valued hr hc⟩

/-! ## CALC, BENCH and the host's response -/

/-- Settles O28: the run is that of CALC's lines alone, whose effects fold the bytes from the canonical pair. -/
theorem calcLeavesResult : Obligations.CalcLeavesResult := by
  unfold Obligations.CalcLeavesResult
  refine ⟨fun seq ds s hr hds => ?_, fun seq => ⟨_, _, rfl, append_eq_shiftLeft_or _ _⟩, initPair_join⟩
  refine ⟨{ crc := some (foldUpd initPair seq), refused := false, inputs := [] }, ?_, rfl, rfl, readR_valued rfl rfl⟩
  rw [← feed_withoutIdles ds hr, hds, feed_lines _ hr, foldl_effect_calcLines]

/-- The harness reads the crc of its sequence, whatever the register held before. -/
theorem harness_eq_crc {n : Nat} (hn : 1 ≤ n) (seq : List Byte) {s : State} (hr : s.refused = false) :
    harness n seq s = .next (crc seq) := by
  rw [harness, feed_lines _ hr, foldl_effect_benchLines hn]
  exact readR_valued rfl rfl

/-- Settles O30: the last copy of CALC decides the register the harness reads. -/
theorem benchLeavesSameResult : Obligations.BenchLeavesSameResult := by
  unfold Obligations.BenchLeavesSameResult
  exact fun n seq s hn hr => harness_eq_crc hn seq hr

/-- Settles O42: a request in its contract is answered by its parsing, and the harness of a parsed sequence reads its
crc. -/
theorem hostAnswersWithChecksum : Obligations.HostAnswersWithChecksum := by
  unfold Obligations.HostAnswersWithChecksum
  intro draw r s h1 hmax hr
  have hwf : r.wf = true := by simp [Request.wf, h1, hmax]
  refine ⟨fun seq hparse => ?_, fun e hparse => ?_⟩
  · rw [serve, if_pos hwf, hparse]
    simp only [harness_eq_crc h1 seq hr]
  · rw [serve, if_pos hwf, hparse]

/-! ## The bit-serial register -/

/-- The register of the bit-serial CRC that goes with a pair: `hi` is its low byte (R89). -/
def CrcPair.serial (p : CrcPair) : Word16 := p.lo ++ p.hi

theorem swap16_serial (p : CrcPair) : swap16 p.serial = p.join := by
  rw [swap16, CrcPair.serial, BitVec.extractLsb'_append_eq_right, BitVec.extractLsb'_append_eq_left, CrcPair.join]

theorem zext16_eq_append (b : Byte) : zext16 b = 0x00#8 ++ b :=
  BitVec.setWidth_eq_append (by decide)

theorem romWord_eq_append (i : Byte) : romWord i = tableLo i ++ tableHi i := (memRead_eq_romWord i).symm

/-- Eight bit steps shift a cleared low byte out and never meet the polynomial. -/
theorem bitSteps_high_byte (lo : Byte) : bitSteps 8 (lo ++ 0x00#8) = zext16 lo := by
  revert lo; decide

/-- One byte of the bit-serial CRC is one UPDATE: the low byte and the new one select a ROM word, and the high byte is
shifted down onto it. -/
theorem serial_upd (p : CrcPair) (b : Byte) : (upd p b).serial = bitSerialByte p.serial b := by
  have hsplit : p.serial ^^^ zext16 b = p.lo ++ 0x00#8 ^^^ zext16 (p.hi ^^^ b) := by
    calc p.serial ^^^ zext16 b
        = (p.lo ^^^ 0x00#8) ++ (p.hi ^^^ b) := by rw [zext16_eq_append]; exact BitVec.xor_append
      _ = (p.lo ^^^ 0x00#8) ++ (0x00#8 ^^^ (p.hi ^^^ b)) := by rw [BitVec.zero_xor]
      _ = p.lo ++ 0x00#8 ^^^ zext16 (p.hi ^^^ b) := by rw [zext16_eq_append]; exact BitVec.xor_append.symm
  symm
  calc bitSerialByte p.serial b
      = bitSteps 8 (p.lo ++ 0x00#8) ^^^ genWord (p.hi ^^^ b) := by
        rw [bitSerialByte, hsplit, bitSteps_xor, genWord]
    _ = zext16 p.lo ^^^ romWord (p.hi ^^^ b) := by rw [bitSteps_high_byte, romWord_eq_genWord]
    _ = (0x00#8 ^^^ tableLo (p.hi ^^^ b)) ++ (p.lo ^^^ tableHi (p.hi ^^^ b)) := by
        rw [zext16_eq_append, romWord_eq_append, BitVec.xor_append]
    _ = (upd p b).serial := by rw [BitVec.zero_xor]; rfl

theorem serial_foldUpd (p : CrcPair) (seq : List Byte) :
    (foldUpd p seq).serial = seq.foldl bitSerialByte p.serial := by
  induction seq generalizing p with
  | nil => rfl
  | cons b seq ih => rw [foldUpd_cons, ih, serial_upd, List.foldl_cons]

theorem bitSerial_eq_serial (seq : List Byte) : bitSerial seq = (foldUpd initPair seq).serial := by
  have hinit : initPair.serial = 0xFFFF#16 := by decide
  rw [serial_foldUpd, hinit, bitSerial]

theorem crc_eq_swap16_bitSerial (seq : List Byte) : crc seq = swap16 (bitSerial seq) := by
  rw [bitSerial_eq_serial, swap16_serial, crc]

/-- Settles O32: along a sequence the bit-serial register holds the pair with `hi` as its low byte, so the result is its
swap; the check pair gives both check values. -/
theorem resultIsSwappedBitSerialCrc : Obligations.ResultIsSwappedBitSerialCrc := by
  unfold Obligations.ResultIsSwappedBitSerialCrc
  have hcheck : foldUpd initPair
      [0x31#8, 0x32#8, 0x33#8, 0x34#8, 0x35#8, 0x36#8, 0x37#8, 0x38#8, 0x39#8] = ⟨0x37#8, 0x4B#8⟩ := by decide
  refine ⟨fun seq => ?_, crc_eq_swap16_bitSerial, ?_, ?_⟩
  · rw [crc_eq_swap16_bitSerial, swap16, append_eq_shiftLeft_or]
  · rw [crc, hcheck]; rfl
  · rw [bitSerial_eq_serial, hcheck]; rfl

/-- Settles O33: each appended byte equals the `hi` it meets, so index 0 is read twice and both halves empty. -/
theorem residueIsZero : Obligations.ResidueIsZero := by
  unfold Obligations.ResidueIsZero
  intro seq h l hcrc
  have hpair : foldUpd initPair seq = ⟨h, l⟩ := eq_of_join_eq_append hcrc
  rw [crc, foldUpd_append, hpair, foldUpd_cons, upd_hi, foldUpd_cons, upd_hi, foldUpd_nil]
  rfl

/-! ## A run whose host keeps its duties -/

/-- What the duties leave for the next edge: `rst`, IDLE, INIT, or UPDATE in a calculation that has room for a byte. -/
theorem keepsDuties_cons {count : Option Nat} {d : Drive} {ds : List Drive} (h : keepsDuties count (d :: ds) = true) :
    (∃ op byte, d = .levels true op byte ∧ keepsDuties (some 0) ds = true) ∨
      (∃ byte, d = .levels false 0b00#2 byte ∧ keepsDuties count ds = true) ∨
      (∃ byte, d = .levels false 0b01#2 byte ∧ keepsDuties (some 0) ds = true) ∨
      (∃ byte n, d = .levels false 0b10#2 byte ∧ count = some n ∧ n < Config.maxLen ∧
        keepsDuties (some (n + 1)) ds = true) := by
  match d, h with
  | .levels true op byte, h => exact .inl ⟨op, byte, rfl, h⟩
  | .levels false op byte, h =>
    obtain rfl | rfl | rfl | rfl := cmdOp_cases op
    · exact .inr (.inl ⟨byte, rfl, by simpa [keepsDuties] using h⟩)
    · exact .inr (.inr (.inl ⟨byte, rfl, by simpa [keepsDuties] using h⟩))
    · cases count with
      | none => simp [keepsDuties] at h
      | some n =>
        obtain ⟨hn, hds⟩ : n < Config.maxLen ∧ keepsDuties (some (n + 1)) ds = true := by
          simpa [keepsDuties] using h
        exact .inr (.inr (.inr ⟨byte, n, rfl, rfl, hn, hds⟩))
    · simp [keepsDuties] at h

section CalculationEdge

variable (cur : Option (List Byte)) (byte : Byte) (ds : List Drive)

@[simp] theorem calculation_rst (op : CmdOp) :
    calculation cur (.levels true op byte :: ds) = calculation (some []) ds := by simp [calculation]

@[simp] theorem calculation_idle : calculation cur (.levels false 0b00#2 byte :: ds) = calculation cur ds := by
  simp [calculation]

@[simp] theorem calculation_init :
    calculation cur (.levels false 0b01#2 byte :: ds) = calculation (some []) ds := by simp [calculation]

@[simp] theorem calculation_update :
    calculation cur (.levels false 0b10#2 byte :: ds) = calculation (cur.map fun seq => seq ++ [byte]) ds := by
  simp [calculation]

end CalculationEdge

/-- The register in a calculation: the fold of its bytes, or `c`, what the run began with, where none has started. -/
def registerIn (c : Option CrcPair) : Option (List Byte) → Option CrcPair
  | none => c
  | some seq => some (foldUpd initPair seq)

/-- A dutiful run completes with the register of its calculation, which has at most 256 bytes: each edge the duties allow
moves the register and the calculation together. -/
theorem feed_dutiful (c : Option CrcPair) (ds : List Drive) {s : State} {cur : Option (List Byte)}
    (hr : s.refused = false) (hreg : s.crc = registerIn c cur) (hlen : ∀ seq ∈ cur, seq.length ≤ Config.maxLen)
    (hduty : keepsDuties (cur.map List.length) ds = true) :
    feed ds s = .next { crc := registerIn c (calculation cur ds), refused := false, inputs := [] } ∧
      ∀ seq ∈ calculation cur ds, seq.length ≤ Config.maxLen := by
  induction ds generalizing s cur with
  | nil => exact ⟨by rw [feed_nil, calculation, ← hreg, ← hr]; rfl, hlen⟩
  | cons d ds ih =>
    obtain ⟨op, byte, rfl, hds⟩ | ⟨byte, rfl, hds⟩ | ⟨byte, rfl, hds⟩ | ⟨byte, n, rfl, hcount, hn, hds⟩ :=
      keepsDuties_cons hduty
    · rw [feed_cons_of_next hr (clockEdge_rst op byte s), calculation_rst]
      exact ih (cur := some []) hr rfl (by simp) hds
    · rw [feed_cons_of_next hr (clockEdge_idle byte s), calculation_idle]
      exact ih hr hreg hlen hds
    · rw [feed_cons_of_next hr (clockEdge_init byte s), calculation_init]
      exact ih (cur := some []) hr rfl (by simp) hds
    · obtain ⟨seq, rfl, rfl⟩ := Option.map_eq_some_iff.mp hcount
      rw [feed_cons_of_next hr (clockEdge_update byte s), calculation_update]
      refine ih (cur := some (seq ++ [byte])) hr ?_ (by simpa using hn) (by simpa using hds)
      rw [State.consume_crc, hreg]
      simp [registerIn, foldUpd_append]

/-- Settles O35: the dutiful run from no calculation. -/
theorem dutifulRunComputesCrc : Obligations.DutifulRunComputesCrc := by
  unfold Obligations.DutifulRunComputesCrc
  intro ds s hr hduty
  obtain ⟨hfeed, hlen⟩ := feed_dutiful s.crc ds (cur := none) hr rfl (by simp) hduty
  refine ⟨_, hfeed, rfl, fun hnone => by rw [hnone]; rfl, fun seq hseq => ?_⟩
  rw [hseq]
  exact ⟨hlen seq hseq, rfl, readR_valued rfl rfl⟩

end Sys2Proof.Machine
end

section
/-! Proofs of the family 60_exceptions.md: no fault in the block, the edge that ends a calculation, then the host software
around the block. -/

namespace Sys2Proof.Machine

/-! ## No exception in the block -/

@[simp] theorem exec_reserved (b : Byte) (s : State) : exec (.reserved b) s = .refused .reservedOp := rfl

/-- Every command but the reserved one goes on from every state. -/
theorem exec_of_wf {i : Instr} (hwf : i.wf = true) (s : State) : ∃ t, exec i s = .next t := by
  cases i with
  | idle => exact ⟨s, exec_idle s⟩
  | init => exact ⟨s.loadInit, exec_init s⟩
  | update b => exact ⟨s.consume b, exec_update b s⟩
  | reserved b => cases hwf

theorem exec_ne_fault (i : Instr) (s : State) (r : Fault) : exec i s ≠ .fault r := by
  cases i with
  | idle => rw [exec_idle]; exact nofun
  | init => rw [exec_init]; exact nofun
  | update b => rw [exec_update]; exact nofun
  | reserved b => rw [exec_reserved]; exact nofun

theorem clockEdge_ne_fault (d : Drive) (s : State) (r : Fault) : clockEdge d s ≠ .fault r := by
  match d with
  | .undefinedLevels => exact nofun
  | .levels true op byte => rw [clockEdge_rst]; exact nofun
  | .levels false op byte => exact exec_ne_fault (decode (portWord op byte)) s r

theorem step_ne_fault (s : State) (r : Fault) : step s ≠ .fault r := by
  cases hr : s.refused with
  | true => rw [step_marked hr]; exact nofun
  | false =>
    cases hi : s.inputs with
    | nil => rw [step_stopped hr hi]; exact nofun
    | cons d ds => rw [step_edge hr hi]; exact clockEdge_ne_fault d _ r

/-- Settles O19: no command faults, so no edge and no step does. -/
theorem blockRaisesNoException : Obligations.BlockRaisesNoException := by
  unfold Obligations.BlockRaisesNoException
  exact ⟨step_ne_fault, exec_ne_fault, fun _ s hwf => exec_of_wf hwf s⟩

/-- Settles O18: a step with a clear mark and an empty schedule. -/
theorem stoppedClockHoldsState : Obligations.StoppedClockHoldsState := by
  unfold Obligations.StoppedClockHoldsState
  exact fun _ hr hi => step_stopped hr hi

/-- Settles O44: the step is the edge of the undefined levels, which is refused. -/
theorem undefinedLevelsAreRefused : Obligations.UndefinedLevelsAreRefused := by
  unfold Obligations.UndefinedLevelsAreRefused
  intro s ds hr hi
  rw [step_edge hr hi, clockEdge_refused_iff]
  exact .inl ⟨rfl, rfl⟩

/-! ## The edges of a calculation -/

theorem length_calcLines (seq : List Byte) : (calcLines seq).length = seq.length + 1 := by
  rw [calcLines, List.length_cons, List.length_map]

theorem length_benchLines (n : Nat) (seq : List Byte) : (benchLines n seq).length = n * (seq.length + 1) := by
  rw [benchLines_eq_flatten, List.length_flatten, List.map_replicate, List.sum_replicate_nat, length_calcLines]

theorem carryOn_next {s t : State} (h : step s = .next t) : carryOn s = t := by
  rw [carryOn, h]

/-- The last reading along a run that goes on is that of the state the run ends in. -/
theorem readings_last {n : Nat} {s t : State} (h : runEdges (n + 1) s = .next t) :
    (readings (n + 1) s)[n]? = some t.readR := by
  induction n generalizing s with
  | zero =>
    obtain ⟨u, hu, ht⟩ := runEdges_succ_next h
    cases ht
    rw [readings, carryOn_next hu, List.getElem?_cons_zero]
  | succ n ih =>
    obtain ⟨u, hu, ht⟩ := runEdges_succ_next h
    rw [readings, carryOn_next hu, List.getElem?_cons_succ, ih ht]

/-- Settles O34: CALC's lines go on to the register of `crc seq`, and the last reading is that register's. -/
theorem calculationEdgeCounts : Obligations.CalculationEdgeCounts := by
  unfold Obligations.CalculationEdgeCounts
  refine ⟨length_calcLines, length_benchLines, fun seq s hr => ?_⟩
  have hrun := feed_lines (calcLines seq) hr
  rw [feed, List.length_map, length_calcLines, foldl_effect_calcLines] at hrun
  rw [readings_last hrun]
  exact congrArg some (readR_valued rfl rfl)

/-! ## The InputParser's length checks -/

theorem lengthError_odd {norm : List Char} (hodd : norm.length % 2 = 1) (hle : norm.length ≤ 2 * Config.maxLen) :
    lengthError norm = some .oddLength := by
  rw [lengthError, if_pos hodd, if_pos hle]

theorem lengthError_tooLong {norm : List Char} (heven : norm.length % 2 = 0) (hlt : 2 * Config.maxLen < norm.length) :
    lengthError norm = some .tooLong := by
  rw [lengthError, if_neg (by omega), if_pos hlt]

/-- A length check that fails reports a length, never a group. -/
theorem lengthError_some {norm : List Char} {e : ParseError} (h : lengthError norm = some e) :
    e = .oddLength ∨ e = .tooLong := by
  unfold lengthError at h
  split at h
  · split at h
    · cases h; exact .inl rfl
    · split at h <;> cases h
      · exact .inl rfl
      · exact .inr rfl
  · split at h <;> cases h
    exact .inr rfl

theorem lengthError_eq_none_iff {norm : List Char} :
    lengthError norm = none ↔ norm.length % 2 = 0 ∧ norm.length ≤ 2 * Config.maxLen := by
  unfold lengthError
  split_ifs <;> simp only [false_iff, true_iff] <;> omega

theorem parse_of_lengthError {text : List Char} {e : ParseError} (h : lengthError (removeWhitespace text) = some e) :
    parse text = .error e := by
  rw [parse, h]

theorem parse_of_lengthOk {text : List Char} (h : lengthError (removeWhitespace text) = none) :
    parse text = decodeGroups text 0 (groups (removeWhitespace text)) := by
  rw [parse, h]

/-- Settles O40: a failing length check is the parser's answer. -/
theorem lengthChecksComeFirst : Obligations.LengthChecksComeFirst := by
  unfold Obligations.LengthChecksComeFirst
  refine fun text => ⟨fun hodd hle => parse_of_lengthError (lengthError_odd hodd hle),
    fun heven hlt => parse_of_lengthError (lengthError_tooLong heven hlt), fun hodd _ => ?_⟩
  cases h : lengthError (removeWhitespace text) with
  | none => have := (lengthError_eq_none_iff.mp h).1; omega
  | some e =>
    rw [parse_of_lengthError h]
    exact (lengthError_some h).imp (congrArg _) (congrArg _)

/-! ## The groups of a normalised text -/

/-- A text of even length falls into groups of two characters. -/
theorem exists_pair_of_mem_groups {cs g : List Char} (heven : cs.length % 2 = 0) (hg : g ∈ groups cs) :
    ∃ a b, g = [a, b] := by
  induction cs using groups.induct with
  | case1 a b cs ih =>
    obtain rfl | hg := List.mem_cons.mp hg
    · exact ⟨a, b, rfl⟩
    · exact ih ((Nat.add_mod_right _ 2).symm.trans heven) hg
  | case2 a => simp at heven
  | case3 => simp [groups] at hg

theorem two_mul_length_groups {cs : List Char} (heven : cs.length % 2 = 0) : cs.length = 2 * (groups cs).length := by
  induction cs using groups.induct with
  | case1 a b cs ih =>
    have := ih ((Nat.add_mod_right _ 2).symm.trans heven)
    simp only [groups, List.length_cons]
    omega
  | case2 a => simp at heven
  | case3 => rfl

/-- Two characters that are no byte hold one that is no hex digit. -/
theorem hexDigit_none_of_hexByte_none {a b : Char} (h : hexByte [a, b] = none) : ∃ c ∈ [a, b], hexDigit c = none := by
  cases ha : hexDigit a with
  | none => exact ⟨a, by simp, ha⟩
  | some va =>
    cases hb : hexDigit b with
    | none => exact ⟨b, by simp, hb⟩
    | some vb => simp [hexByte, ha, hb] at h

/-! ## Decoding the groups -/

section DecodeGroups

variable {text : List Char} {k : Nat} {g : List Char} {gs : List (List Char)}

theorem decodeGroups_cons_none (h : hexByte g = none) :
    decodeGroups text k (g :: gs) = .error (.hexParse g (Config.hexErrorPosition text k)) := by
  rw [decodeGroups, h]

theorem decodeGroups_cons_ok {b : Byte} {bs : List Byte} (h : hexByte g = some b)
    (hgs : decodeGroups text (k + 1) gs = .ok bs) : decodeGroups text k (g :: gs) = .ok (b :: bs) := by
  simp only [decodeGroups, h, hgs]

theorem decodeGroups_cons_error {b : Byte} {e : ParseError} (h : hexByte g = some b)
    (hgs : decodeGroups text (k + 1) gs = .error e) : decodeGroups text k (g :: gs) = .error e := by
  simp only [decodeGroups, h, hgs]

/-- The groups of a decoded text are the bytes read, one a group and in order. -/
theorem map_hexByte_of_decodeGroups_ok {bs : List Byte} (h : decodeGroups text k gs = .ok bs) :
    gs.map hexByte = bs.map some := by
  induction gs generalizing k bs with
  | nil => cases h; rfl
  | cons g gs ih =>
    cases hg : hexByte g with
    | none => rw [decodeGroups_cons_none hg] at h; cases h
    | some b =>
      cases hgs : decodeGroups text (k + 1) gs with
      | error e => rw [decodeGroups_cons_error hg hgs] at h; cases h
      | ok bs => rw [decodeGroups_cons_ok hg hgs] at h; cases h; rw [List.map_cons, List.map_cons, hg, ih hgs]

/-- The group a HexParseError names is one of the groups, and it is no byte. -/
theorem mem_of_decodeGroups_error {bad : List Char} {pos : Nat}
    (h : decodeGroups text k gs = .error (.hexParse bad pos)) :
    bad ∈ gs ∧ hexByte bad = none := by
  induction gs generalizing k with
  | nil => cases h
  | cons g gs ih =>
    cases hg : hexByte g with
    | none => rw [decodeGroups_cons_none hg] at h; cases h; exact ⟨List.mem_cons_self, hg⟩
    | some b =>
      cases hgs : decodeGroups text (k + 1) gs with
      | ok bs => rw [decodeGroups_cons_ok hg hgs] at h; cases h
      | error e =>
        rw [decodeGroups_cons_error hg hgs] at h
        cases h
        exact (ih hgs).imp_left (List.mem_cons_of_mem g)

end DecodeGroups

/-- Settles O41: an answer about groups comes from a text that passed the length checks, so its groups are pairs of
characters, one for each byte. -/
theorem parserAnswers : Obligations.ParserAnswers := by
  unfold Obligations.ParserAnswers
  refine ⟨fun text seq h => ?_, fun text g k h => ?_⟩
  · cases hlen : lengthError (removeWhitespace text) with
    | some e => rw [parse_of_lengthError hlen] at h; cases h
    | none =>
      obtain ⟨heven, hle⟩ := lengthError_eq_none_iff.mp hlen
      rw [parse_of_lengthOk hlen] at h
      have hbytes := map_hexByte_of_decodeGroups_ok h
      have hcount : (groups (removeWhitespace text)).length = seq.length := by
        simpa using congrArg List.length hbytes
      have htwo : (removeWhitespace text).length = 2 * seq.length := by rw [two_mul_length_groups heven, hcount]
      rw [htwo] at hle
      exact ⟨Nat.le_of_mul_le_mul_left hle two_pos, htwo, hbytes⟩
  · cases hlen : lengthError (removeWhitespace text) with
    | some e =>
      rw [parse_of_lengthError hlen] at h
      cases h
      obtain hodd | hlong := lengthError_some hlen
      · cases hodd
      · cases hlong
    | none =>
      rw [parse_of_lengthOk hlen] at h
      obtain ⟨hmem, hnone⟩ := mem_of_decodeGroups_error h
      obtain ⟨a, b, rfl⟩ := exists_pair_of_mem_groups (lengthError_eq_none_iff.mp hlen).1 hmem
      exact ⟨hmem, hexDigit_none_of_hexByte_none hnone⟩

/-! ## Bytes written as hex digits, read back -/

/-- A hex digit is no whitespace: it is a printable ASCII character other than a space (R117). -/
theorem isWhitespace_hexChar (v : BitVec 4) : isWhitespace (hexChar v) = false := by
  revert v; decide

theorem exists_hexChar_of_mem_hexOfByte {b : Byte} {c : Char} (hc : c ∈ hexOfByte b) : ∃ v, c = hexChar v := by
  rw [hexOfByte, List.mem_pair] at hc
  exact hc.elim (fun h => ⟨_, h⟩) fun h => ⟨_, h⟩

theorem removeWhitespace_hexOfBytes (bs : List Byte) :
    removeWhitespace (bs.flatMap hexOfByte) = bs.flatMap hexOfByte := by
  refine List.filter_eq_self.mpr fun c hc => ?_
  obtain ⟨b, -, hc⟩ := List.mem_flatMap.mp hc
  obtain ⟨v, rfl⟩ := exists_hexChar_of_mem_hexOfByte hc
  rw [isWhitespace_hexChar, Bool.not_false]

theorem length_hexOfBytes (bs : List Byte) : (bs.flatMap hexOfByte).length = 2 * bs.length := by
  induction bs with
  | nil => rfl
  | cons b bs ih =>
    have hb : (hexOfByte b).length = 2 := rfl
    rw [List.flatMap_cons, List.length_append, hb, ih, List.length_cons]
    omega

theorem groups_hexOfBytes (bs : List Byte) : groups (bs.flatMap hexOfByte) = bs.map hexOfByte := by
  induction bs with
  | nil => rfl
  | cons b bs ih => exact congrArg (hexOfByte b :: ·) ih

theorem decodeGroups_hexOfBytes (text : List Char) (k : Nat) (bs : List Byte) :
    decodeGroups text k (bs.map hexOfByte) = .ok bs := by
  induction bs generalizing k with
  | nil => rfl
  | cons b bs ih => exact decodeGroups_cons_ok (hexByte_hexOfByte b) (ih (k + 1))

/-- At most 256 bytes written as hex digits parse back to themselves. -/
theorem parse_hexOfBytes {bs : List Byte} (h : bs.length ≤ Config.maxLen) : parse (bs.flatMap hexOfByte) = .ok bs := by
  have hlen : lengthError (removeWhitespace (bs.flatMap hexOfByte)) = none := by
    rw [removeWhitespace_hexOfBytes, lengthError_eq_none_iff, length_hexOfBytes]
    omega
  rw [parse_of_lengthOk hlen, removeWhitespace_hexOfBytes, groups_hexOfBytes, decodeGroups_hexOfBytes]

/-- Settles O39: R is rendered as its two bytes in hex digits, high byte first. -/
theorem renderedResultParsesBack : Obligations.RenderedResultParsesBack := by
  unfold Obligations.RenderedResultParsesBack
  intro r
  have hrender : render r = [r.extractLsb' 8 8, r.extractLsb' 0 8].flatMap hexOfByte := rfl
  rw [hrender, parse_hexOfBytes (by simp [Config.maxLen])]

/-! ## Cancellation -/

/-- Settles O43: each clear flag lets one iteration through, and the first set flag ends the lines. -/
theorem cancellationAtCalculationBoundary : Obligations.CancellationAtCalculationBoundary := by
  unfold Obligations.CancellationAtCalculationBoundary
  intro seq flags
  induction flags with
  | nil => rfl
  | cons flag flags ih =>
    cases flag with
    | true => rfl
    | false => exact congrArg (calcLines seq ++ ·) ih

end Sys2Proof.Machine
end

section
/-! Proofs of the family 70_reset_and_hazards.md. The reset edge, the edges that do not write the
register, runs from an unvalued register and IDLE cycles: the rules on each, followed by the obligation they settle. -/

namespace Sys2Proof.Machine

open Sys2Proof.Safety

/-! ## The reset edge -/

/-- Settles O16: an `rst` edge samples no op and no byte, and no edge clears a set mark. -/
theorem resetEdgeWins : Obligations.ResetEdgeWins := by
  unfold Obligations.ResetEdgeWins
  refine ⟨fun s op byte ds hr hi => ?_, fun s op byte ds hr _ => carryOn_keeps_mark hr⟩
  rw [step_edge hr hi, clockEdge_rst, ← hr]; rfl

/-! ## Edges that do not write the register -/

@[simp] theorem writesRegister_rst (op : CmdOp) (byte : Byte) : writesRegister (.levels true op byte) = true := rfl

@[simp] theorem writesRegister_init (byte : Byte) : writesRegister (.levels false 0b01#2 byte) = true := by
  simp [writesRegister]

@[simp] theorem writesRegister_update (byte : Byte) : writesRegister (.levels false 0b10#2 byte) = true := by
  simp [writesRegister]

/-- An edge that goes on without writing the register is IDLE, and leaves the register. -/
theorem clockEdge_keeps_crc {d : Drive} {s t : State} (hd : writesRegister d = false) (h : clockEdge d s = .next t) :
    t.crc = s.crc := by
  obtain ⟨op, byte, rfl, -⟩ | ⟨byte, rfl, -⟩ | ⟨byte, rfl, -⟩ | ⟨byte, -, hcrc⟩ := clockEdge_crc h
  · simp at hd
  · simp at hd
  · simp at hd
  · exact hcrc

theorem crcOut_congr {s t : State} (hc : s.crc = t.crc) : s.crcOut = t.crcOut := by
  rw [State.crcOut, hc, State.crcOut]

/-- Settles O23: `crc_out` and the reading are functions of the register and the mark, which the ports are no part of and
an edge that does not write the register keeps. -/
theorem readingIsRegistered : Obligations.ReadingIsRegistered := by
  unfold Obligations.ReadingIsRegistered
  refine ⟨fun s ds => ⟨State.readR_congr rfl rfl, crcOut_congr rfl⟩, fun s t d ds hi hd h => ?_⟩
  obtain ⟨hr, -⟩ := step_next h
  rw [step_edge hr hi] at h
  have hcrc : t.crc = s.crc := clockEdge_keeps_crc (s := s.withInputs ds) hd h
  have hmark : t.refused = s.refused := (clockEdge_frame h).1
  exact ⟨crcOut_congr hcrc, State.readR_congr hcrc hmark⟩

/-! ## Runs from an unvalued register -/

/-- Neither IDLE nor UPDATE gives an unvalued register a value. -/
theorem clockEdge_unvalued {op : CmdOp} (hop : op = 0b00#2 ∨ op = 0b10#2) (byte : Byte) {s : State}
    (hc : s.crc = none) : clockEdge (.levels false op byte) s = .next s := by
  obtain rfl | rfl := hop
  · exact clockEdge_idle byte s
  · rw [clockEdge_update, consume_unvalued byte hc]

/-- A run of IDLE and UPDATE edges from an unvalued register only uses up its schedule. -/
theorem feed_unvalued {ds : List Drive} {s : State} (hr : s.refused = false) (hc : s.crc = none)
    (hds : ∀ d ∈ ds, ∃ op byte, d = .levels false op byte ∧ (op = 0b00#2 ∨ op = 0b10#2)) :
    feed ds s = .next (s.withInputs []) := by
  induction ds with
  | nil => exact feed_nil s
  | cons d ds ih =>
    rw [List.forall_mem_cons] at hds
    obtain ⟨⟨op, byte, rfl, hop⟩, hds⟩ := hds
    rw [feed_cons_of_next hr (clockEdge_unvalued hop byte hc), ih hds]

/-- Settles O27: the run ends in the state it began in but for the schedule, where a read finds no value. -/
theorem powerUpStaysUnvalued : Obligations.PowerUpStaysUnvalued := by
  unfold Obligations.PowerUpStaysUnvalued
  exact fun ds s hr hc hds =>
    ⟨s.withInputs [], feed_unvalued hr hc hds, hc, readR_unvalued (s := s.withInputs []) hr hc⟩

/-! ## IDLE cycles -/

/-- Settles O29: an IDLE edge answers the state it is given, so a run ends the same without it. -/
theorem idlesNeverMatter : Obligations.IdlesNeverMatter := by
  unfold Obligations.IdlesNeverMatter
  exact fun ds _ hr => feed_withoutIdles ds hr

end Sys2Proof.Machine
end
